-- ==== Sys2Proof/Word.lean ====
section
/-! DEFINITION. The two word sizes of the gomachine dispatcher: the 64-bit value of a register, an operand, an address
or the instruction pointer (00_scope.md R6, R7), and the byte of the bytecode and of guest memory (R13, R14). -/

namespace Sys2Proof

/-- A 64-bit value (R6, R7). -/
abbrev Word := BitVec 64

/-- A byte of the bytecode or of guest memory (R13, R14). -/
abbrev Byte := BitVec 8

end Sys2Proof
end

