-- ==== Sys2Proof/Syntax.lean ====
section
/-! DEFINITION. The 42 instructions of 30_encoding.md R77, one constructor for each row of the opcode table, in the
table's order. An operand has the width its format gives it (R71, R72); registers are implied by the opcode (R73). -/

namespace Sys2Proof

/-- An instruction with its operand. -/
inductive Instr where
  /-- Load-U8 (R110) -/
  | loadU8 (imm : BitVec 8)
  /-- Load-U16 (R111) -/
  | loadU16 (imm : BitVec 16)
  /-- Load-U32 (R112) -/
  | loadU32 (imm : BitVec 32)
  /-- Load-U64 (R113) -/
  | loadU64 (imm : BitVec 64)
  /-- MemLoad-U8 (R115) -/
  | memLoadU8 (addr : Word)
  /-- MemLoad-U16 (R116) -/
  | memLoadU16 (addr : Word)
  /-- MemLoad-U32 (R117) -/
  | memLoadU32 (addr : Word)
  /-- MemLoad-U64 (R118) -/
  | memLoadU64 (addr : Word)
  /-- MoveR1->R2 (R120) -/
  | moveR1R2
  /-- MoveR1->R3 (R121) -/
  | moveR1R3
  /-- MoveR2->R1 (R122) -/
  | moveR2R1
  /-- MoveR2->R3 (R123) -/
  | moveR2R3
  /-- MoveR3->R1 (R124) -/
  | moveR3R1
  /-- MoveR3->R2 (R125) -/
  | moveR3R2
  /-- MoveR4->R1 (R126) -/
  | moveR4R1
  /-- MoveR4->R2 (R127) -/
  | moveR4R2
  /-- MoveR4->R3 (R128) -/
  | moveR4R3
  /-- Dump-U8 (R130) -/
  | dumpU8 (addr : Word)
  /-- Dump-U16 (R131) -/
  | dumpU16 (addr : Word)
  /-- Dump-U32 (R132) -/
  | dumpU32 (addr : Word)
  /-- Dump-U64 (R133) -/
  | dumpU64 (addr : Word)
  /-- UnsignedAdd (R135) -/
  | unsignedAdd
  /-- SignedAdd (R136) -/
  | signedAdd
  /-- UnsignedSub (R137) -/
  | unsignedSub
  /-- SignedSub (R138) -/
  | signedSub
  /-- UnsignedDiv (R140) -/
  | unsignedDiv
  /-- SignedDiv (R141) -/
  | signedDiv
  /-- UnsignedMod (R142) -/
  | unsignedMod
  /-- SignedMod (R143) -/
  | signedMod
  /-- And (R150) -/
  | and
  /-- Or (R151) -/
  | or
  /-- Xor (R152) -/
  | xor
  /-- LeftShift (R154) -/
  | leftShift
  /-- RightShift (R155) -/
  | rightShift
  /-- Jmp (R159) -/
  | jmp (target : Word)
  /-- JmpIfEq (R162) -/
  | jmpIfEq (target : Word)
  /-- JmpIfNe (R163) -/
  | jmpIfNe (target : Word)
  /-- JmpIfGt (R164) -/
  | jmpIfGt (target : Word)
  /-- JmpIfLt (R165) -/
  | jmpIfLt (target : Word)
  /-- JmpIfGtOrEq (R166) -/
  | jmpIfGtOrEq (target : Word)
  /-- JmpIfLtOrEq (R167) -/
  | jmpIfLtOrEq (target : Word)
  /-- Syscall (R170) -/
  | syscall (id : Word)
  deriving DecidableEq, Repr

end Sys2Proof
end

