-- ==== Sys2Proof/WellFormed.lean ====
section
/-! DEFINITION. What makes an instruction well formed: its operand fits its operand width (30_encoding.md R72, R76, R82).
An `Instr` is well formed by its types; the same check refuses an assembler's value that does not fit (R82, D16). -/

namespace Sys2Proof

/-- The operand width `w` of an instruction in bytes: 0 for format N, 1, 2, 4 or 8 for I8, I16, I32, W64 (R72). -/
def Instr.operandWidth : Instr → Nat
  | .loadU8 _ => 1
  | .loadU16 _ => 2
  | .loadU32 _ => 4
  | .loadU64 _ => 8
  | .memLoadU8 _ | .memLoadU16 _ | .memLoadU32 _ | .memLoadU64 _ => 8
  | .moveR1R2 | .moveR1R3 | .moveR2R1 | .moveR2R3 | .moveR3R1 | .moveR3R2 => 0
  | .moveR4R1 | .moveR4R2 | .moveR4R3 => 0
  | .dumpU8 _ | .dumpU16 _ | .dumpU32 _ | .dumpU64 _ => 8
  | .unsignedAdd | .signedAdd | .unsignedSub | .signedSub => 0
  | .unsignedDiv | .signedDiv | .unsignedMod | .signedMod => 0
  | .and | .or | .xor | .leftShift | .rightShift => 0
  | .jmp _ | .jmpIfEq _ | .jmpIfNe _ | .jmpIfGt _ | .jmpIfLt _ | .jmpIfGtOrEq _ | .jmpIfLtOrEq _ => 8
  | .syscall _ => 8

/-- The operand of an instruction as an unsigned number; format N has none (R74, R75). -/
def Instr.operandValue : Instr → Option Nat
  | .loadU8 imm => some imm.toNat
  | .loadU16 imm => some imm.toNat
  | .loadU32 imm => some imm.toNat
  | .loadU64 imm => some imm.toNat
  | .memLoadU8 a | .memLoadU16 a | .memLoadU32 a | .memLoadU64 a => some a.toNat
  | .moveR1R2 | .moveR1R3 | .moveR2R1 | .moveR2R3 | .moveR3R1 | .moveR3R2 => none
  | .moveR4R1 | .moveR4R2 | .moveR4R3 => none
  | .dumpU8 a | .dumpU16 a | .dumpU32 a | .dumpU64 a => some a.toNat
  | .unsignedAdd | .signedAdd | .unsignedSub | .signedSub => none
  | .unsignedDiv | .signedDiv | .unsignedMod | .signedMod => none
  | .and | .or | .xor | .leftShift | .rightShift => none
  | .jmp t | .jmpIfEq t | .jmpIfNe t | .jmpIfGt t | .jmpIfLt t | .jmpIfGtOrEq t | .jmpIfLtOrEq t => some t.toNat
  | .syscall id => some id.toNat

/-- A value fits an operand width of `w` bytes: no value where there is no operand, a value where there is one, and
that value below `2^(8w)` (R76, R82). -/
def operandFits (w : Nat) (value : Option Nat) : Bool :=
  match value with
  | none => w == 0
  | some v => w != 0 && decide (v < 2 ^ (8 * w))

/-- An instruction is well formed when its operand fits its operand width (R76: every value that fits is legal). -/
def Instr.wellFormed (i : Instr) : Bool := operandFits i.operandWidth i.operandValue

end Sys2Proof
end

