-- ==== Sys2Proof/Decode.lean ====
section
/-! DEFINITION. Little-endian byte strings (20_memory.md R50, R51), the opcode map of 30_encoding.md R77 as one table
(N4, I15), the decoder (R78 to R81), the encoder (R70 to R75) and the assembler's refusal of operands that do not fit
(R82). -/

namespace Sys2Proof

/-- The unsigned value of bytes, least significant first: the sum of byte `k` times `2^(8k)` (00_scope.md R13, R14). -/
def leNat : List Byte → Nat
  | [] => 0
  | b :: bs => b.toNat + 256 * leNat bs

/-- The low `n` bytes of a value, least significant first: byte `k` is `v[8k+7:8k]` (00_scope.md R11). -/
def leBytes : Nat → Nat → List Byte
  | 0, _ => []
  | n + 1, v => BitVec.ofNat 8 v :: leBytes n (v / 256)

/-- One row of the opcode map: opcode byte, operand width in bytes, and the instruction of an operand value. -/
structure OpcodeRow where
  opcode : Byte
  width : Nat
  build : Nat → Instr

/-- Opcodes 0x01 to 0x08: immediate loads and memory loads (R77). -/
def opcodeLoads : List OpcodeRow :=
  [ ⟨0x01, 1, fun v => .loadU8 (BitVec.ofNat 8 v)⟩,
    ⟨0x02, 2, fun v => .loadU16 (BitVec.ofNat 16 v)⟩,
    ⟨0x03, 4, fun v => .loadU32 (BitVec.ofNat 32 v)⟩,
    ⟨0x04, 8, fun v => .loadU64 (BitVec.ofNat 64 v)⟩,
    ⟨0x05, 8, fun v => .memLoadU8 (BitVec.ofNat 64 v)⟩,
    ⟨0x06, 8, fun v => .memLoadU16 (BitVec.ofNat 64 v)⟩,
    ⟨0x07, 8, fun v => .memLoadU32 (BitVec.ofNat 64 v)⟩,
    ⟨0x08, 8, fun v => .memLoadU64 (BitVec.ofNat 64 v)⟩ ]

/-- Opcodes 0x09 to 0x15: register moves and memory stores (R77). -/
def opcodeMovesAndStores : List OpcodeRow :=
  [ ⟨0x09, 0, fun _ => .moveR1R2⟩,
    ⟨0x0A, 0, fun _ => .moveR1R3⟩,
    ⟨0x0B, 0, fun _ => .moveR2R1⟩,
    ⟨0x0C, 0, fun _ => .moveR2R3⟩,
    ⟨0x0D, 0, fun _ => .moveR3R1⟩,
    ⟨0x0E, 0, fun _ => .moveR3R2⟩,
    ⟨0x0F, 0, fun _ => .moveR4R1⟩,
    ⟨0x10, 0, fun _ => .moveR4R2⟩,
    ⟨0x11, 0, fun _ => .moveR4R3⟩,
    ⟨0x12, 8, fun v => .dumpU8 (BitVec.ofNat 64 v)⟩,
    ⟨0x13, 8, fun v => .dumpU16 (BitVec.ofNat 64 v)⟩,
    ⟨0x14, 8, fun v => .dumpU32 (BitVec.ofNat 64 v)⟩,
    ⟨0x15, 8, fun v => .dumpU64 (BitVec.ofNat 64 v)⟩ ]

/-- Opcodes 0x16 to 0x22: arithmetic, bitwise and shift instructions (R77). -/
def opcodeAlu : List OpcodeRow :=
  [ ⟨0x16, 0, fun _ => .unsignedAdd⟩,
    ⟨0x17, 0, fun _ => .signedAdd⟩,
    ⟨0x18, 0, fun _ => .unsignedSub⟩,
    ⟨0x19, 0, fun _ => .signedSub⟩,
    ⟨0x1A, 0, fun _ => .unsignedDiv⟩,
    ⟨0x1B, 0, fun _ => .signedDiv⟩,
    ⟨0x1C, 0, fun _ => .unsignedMod⟩,
    ⟨0x1D, 0, fun _ => .signedMod⟩,
    ⟨0x1E, 0, fun _ => .and⟩,
    ⟨0x1F, 0, fun _ => .or⟩,
    ⟨0x20, 0, fun _ => .xor⟩,
    ⟨0x21, 0, fun _ => .leftShift⟩,
    ⟨0x22, 0, fun _ => .rightShift⟩ ]

/-- Opcodes 0x23 to 0x2A: jumps and Syscall (R77). -/
def opcodeControl : List OpcodeRow :=
  [ ⟨0x23, 8, fun v => .jmp (BitVec.ofNat 64 v)⟩,
    ⟨0x24, 8, fun v => .jmpIfEq (BitVec.ofNat 64 v)⟩,
    ⟨0x25, 8, fun v => .jmpIfNe (BitVec.ofNat 64 v)⟩,
    ⟨0x26, 8, fun v => .jmpIfGt (BitVec.ofNat 64 v)⟩,
    ⟨0x27, 8, fun v => .jmpIfLt (BitVec.ofNat 64 v)⟩,
    ⟨0x28, 8, fun v => .jmpIfGtOrEq (BitVec.ofNat 64 v)⟩,
    ⟨0x29, 8, fun v => .jmpIfLtOrEq (BitVec.ofNat 64 v)⟩,
    ⟨0x2A, 8, fun v => .syscall (BitVec.ofNat 64 v)⟩ ]

/-- The opcode map, closed: 42 rows (R77). DEDUCED: the numbers follow the source's enumeration rule (unsafe, log 22). -/
def opcodeTable : List OpcodeRow := opcodeLoads ++ opcodeMovesAndStores ++ opcodeAlu ++ opcodeControl

/-- The row of an opcode byte, if it is a defined opcode (R78). -/
def findOpcode (b : Byte) : Option OpcodeRow := opcodeTable.find? fun row => row.opcode == b

/-- Why bytes do not decode. -/
inductive DecodeError where
  /-- there is no opcode byte: `pc` has reached the end of the bytecode (R90) -/
  | noOpcode
  /-- the opcode byte is 0x00 or 0x2B to 0xFF (R78, R79) -/
  | unknownInstruction
  /-- the operand bytes would reach past the end of the bytecode (R93) -/
  | invalidInstructionArgument
  deriving DecidableEq, Repr

/-- The decoder on the bytes from `pc` to the end of the bytecode: the instruction and the bytes after it, or the reason
there is none. The opcode is looked at before the operand bytes (R78, R92 to R94, R99). -/
def decode : List Byte → Except DecodeError (Instr × List Byte)
  | [] => .error .noOpcode
  | b :: rest =>
    match findOpcode b with
    | none => .error .unknownInstruction
    | some row =>
      if row.width ≤ rest.length then
        .ok (row.build (leNat (rest.take row.width)), rest.drop row.width)
      else .error .invalidInstructionArgument

/-- The opcode byte of an instruction (R77). -/
def Instr.opcode : Instr → Byte
  | .loadU8 _ => 0x01
  | .loadU16 _ => 0x02
  | .loadU32 _ => 0x03
  | .loadU64 _ => 0x04
  | .memLoadU8 _ => 0x05
  | .memLoadU16 _ => 0x06
  | .memLoadU32 _ => 0x07
  | .memLoadU64 _ => 0x08
  | .moveR1R2 => 0x09
  | .moveR1R3 => 0x0A
  | .moveR2R1 => 0x0B
  | .moveR2R3 => 0x0C
  | .moveR3R1 => 0x0D
  | .moveR3R2 => 0x0E
  | .moveR4R1 => 0x0F
  | .moveR4R2 => 0x10
  | .moveR4R3 => 0x11
  | .dumpU8 _ => 0x12
  | .dumpU16 _ => 0x13
  | .dumpU32 _ => 0x14
  | .dumpU64 _ => 0x15
  | .unsignedAdd => 0x16
  | .signedAdd => 0x17
  | .unsignedSub => 0x18
  | .signedSub => 0x19
  | .unsignedDiv => 0x1A
  | .signedDiv => 0x1B
  | .unsignedMod => 0x1C
  | .signedMod => 0x1D
  | .and => 0x1E
  | .or => 0x1F
  | .xor => 0x20
  | .leftShift => 0x21
  | .rightShift => 0x22
  | .jmp _ => 0x23
  | .jmpIfEq _ => 0x24
  | .jmpIfNe _ => 0x25
  | .jmpIfGt _ => 0x26
  | .jmpIfLt _ => 0x27
  | .jmpIfGtOrEq _ => 0x28
  | .jmpIfLtOrEq _ => 0x29
  | .syscall _ => 0x2A

/-- The bytes of an instruction: its opcode byte, then its operand, least significant byte first (R70, R71). -/
def encode (i : Instr) : List Byte := i.opcode :: leBytes i.operandWidth (i.operandValue.getD 0)

/-- The assembler on an opcode and an optional operand value: it refuses an undefined opcode, an operand that is missing or
not expected, and a value that does not fit the operand width (R82, D16). -/
def assemble (opcode : Byte) (value : Option Nat) : Option Instr :=
  match findOpcode opcode with
  | none => none
  | some row => if operandFits row.width value then some (row.build (value.getD 0)) else none

/-- The number of bytes of the longest instruction (R71: format W64). -/
def maxInstrBytes : Nat := 9

/-- The bytes of an instruction given as a number whose bit 0 is the least significant bit of the first byte; bits from
`nbits` up are 0, to the longest instruction's length (R71). -/
def tableWordBytes (nbits w : Nat) : List Byte := leBytes maxInstrBytes (w % 2 ^ nbits)

/-- The instruction the decoder reads from such a number. -/
def decodeTableWord (nbits w : Nat) : Option Instr :=
  match decode (tableWordBytes nbits w) with
  | .ok (i, _) => some i
  | .error _ => none

end Sys2Proof
end

