-- ==== Sys2Proof/Config.lean ====
section
/-! DEFINITION. What an implementation fixes and what the outside does: the parameters of 00_scope.md R8, and the
inputs of 10_state.md R42 that the block does not determine. A constant with no body is a free value: a proof about the
model holds whatever it is. -/

namespace Sys2Proof

/-- The four registers of the register file (10_state.md R20). -/
inductive Reg where
  | r1
  | r2
  | r3
  | r4
  deriving DecidableEq, Repr

/-- The register file: four 64-bit registers (R20). -/
structure Regs where
  r1 : Word
  r2 : Word
  r3 : Word
  r4 : Word
  deriving DecidableEq, Repr

/-- The name the model gives a host callback (10_state.md R38). DESIGN CHOICE: callbacks are told apart by a number, so
that the syscall table is plain data (safe, log 9). -/
abbrev CallbackId := Nat

/-- A host error value `E` (00_scope.md R15). DESIGN CHOICE: told apart by a number (safe, log 9). -/
abbrev HostError := Nat

/-- One syscall table: pairs of an id and its callback, ids strictly rising (10_state.md R38). -/
abbrev SyscallTable := List (Word × CallbackId)

/-- What a callback sees: the registers, memory and syscall table (48_syscall.md R171). -/
structure View where
  regs : Regs
  mem : List Host.Cell
  memLen : Nat
  sys : SyscallTable
  deriving DecidableEq, Repr

/-- One write of the host to the VM, between calls or from a callback (48_syscall.md R173, 60_exceptions.md R188). A list
of these reaches every view with the same memory length, and nothing else (D9). -/
inductive HostWrite where
  /-- a register is written (R173) -/
  | setReg (r : Reg) (v : Word)
  /-- a byte of memory is written (R40, R173) -/
  | writeByte (a : Nat) (b : Byte)
  /-- register_syscall(id, callback) (R38) -/
  | registerSyscall (id : Word) (cb : CallbackId)
  /-- unregister(id) (R38) -/
  | unregisterSyscall (id : Word)
  /-- clear_registers() (R202) -/
  | clearRegisters
  /-- clear_memory() (R203) -/
  | clearMemory
  deriving DecidableEq, Repr

/-- What the host does while a Syscall waits (48_syscall.md R171 to R175). -/
inductive HostAnswer where
  /-- the callback has not returned yet (R172) -/
  | stillRunning
  /-- the callback made these writes and returned `Ok` (R173) -/
  | ok (writes : List HostWrite)
  /-- the callback made these writes and returned `Err(E)` (R174) -/
  | err (e : HostError) (writes : List HostWrite)
  /-- the callback called execute on the same VM (R175) -/
  | reenters
  deriving DecidableEq, Repr, Inhabited

/-- What the host does between calls: the control interface of 10_state.md R42. -/
inductive HostCommand where
  /-- nothing -/
  | nothing
  /-- one write to the VM (R188) -/
  | write (w : HostWrite)
  /-- construct(memory_length, max_cpu_time) (R200) -/
  | construct (memoryLength maxCpuTime : Nat)
  /-- execute(bytecode) (R100) -/
  | execute (bytecode : List Byte)
  deriving DecidableEq, Repr, Inhabited

/-- The direction of a shift, the first argument of SHIFT_WIDE (46_bitwise.md R153). -/
inductive ShiftDir where
  | left
  | right
  deriving DecidableEq, Repr

/-- MEM_LEN at `State.reset`. DESIGN CHOICE: the spec leaves it to the caller of construct (R8, R200; unsafe, log 2). -/
def Config.memoryLength : Nat := 65536

/-- MAX_CPU_TIME at `State.reset`. DESIGN CHOICE: 0, unlimited; the spec leaves it to the caller of construct (R8, R36,
R200; unsafe, log 2). -/
def Config.maxCpuTime : Nat := 0

/-- SHIFT_WIDE: the result of a shift of a value by a count of 64 or more, a function of the direction, the value and the
count only (46_bitwise.md R153, D6). Free (safe, log 6). -/
opaque Config.shiftWide : ShiftDir → Word → Word → Word

/-- UNTAKEN_TARGET_CHECK: whether a conditional jump that is not taken checks its target (47_control_flow.md R161, D7).
Free (safe, log 7). -/
opaque Config.untakenTargetCheck : Bool

/-- Whether the deadline watcher has fired by the n-th free draw (40_dispatch.md R103, D12). Free (safe, log 8). -/
opaque Config.stopDraw : Nat → Bool

/-- The callbacks' behaviour (HOST of 00_scope.md R8; 48_syscall.md R171): what a callback answers on a view. The number
of the free draw makes it a relation: the same callback may answer the same view differently each time. Free (safe, log 9). -/
opaque Config.callback : CallbackId → View → Nat → HostAnswer

/-- What the host does between calls, at the n-th free draw (10_state.md R42, D26). Free (safe, log 11). -/
opaque Config.command : Nat → HostCommand

end Sys2Proof
end

