-- ==== Sys2Proof/Machine/State.lean ====
section
/-! DEFINITION. The state of the dispatcher (10_state.md R43, R44), what it is after construct, and the reasons a step of
the model stops. -/

namespace Sys2Proof.Machine

/-- The error kinds of 60_exceptions.md R176. An error records its kind only, and the host's value for a callback error
(R177). -/
inductive ErrorKind where
  /-- operand bytes would reach past the end of the bytecode (R93) -/
  | invalidInstructionArgument
  /-- a memory access or a jump target out of range (R53, R158) -/
  | invalidMemoryLocation
  /-- a syscall id that is not in the table (R170) -/
  | invalidSyscall
  /-- the stop flag was seen before an instruction (R91) -/
  | cpuTimeExhausted
  /-- an opcode byte that is not defined (R78) -/
  | unknownInstruction
  /-- what a callback returned, passed through (R174) -/
  | callbackError (e : HostError)
  deriving DecidableEq, Repr

/-- What an execute call returns (R16, R176). -/
inductive Result where
  | success
  | error (k : ErrorKind)
  deriving DecidableEq, Repr

/-- The dispatcher's status (10_state.md R43). -/
inductive Mode where
  /-- no call has been made since construct -/
  | idle
  /-- a call is in progress and the next step runs an instruction -/
  | running
  /-- the syscall port waits for the callback of this id (48_syscall.md R172) -/
  | waitHost (id : Word)
  /-- the call has ended with this result (R16) -/
  | done (r : Result)
  deriving DecidableEq, Repr

/-- The model's own, not the spec's: what the outside does next, oldest first, as far as this state fixes it, and how many
free draws have been made beyond that. DESIGN CHOICE: with empty lists every input is a free draw (safe, log 12). -/
structure Env where
  /-- what the next samples of the stop flag see -/
  stops : List Bool
  /-- what the host answers at the next steps of a syscall wait -/
  answers : List HostAnswer
  /-- what the host does at the next steps between calls -/
  commands : List HostCommand
  /-- the number of the next free draw -/
  draws : Nat
  deriving DecidableEq, Repr

/-- The state (10_state.md R43), with the parameters of a VM and of a call that R43 keeps apart: `memLen`, `maxCpuTime`
and the bytecode `bc` (DESIGN CHOICE: held in the state, so that a statement about every state is one about every value of
them; safe, log 5), and the model's own `env`. -/
structure State where
  /-- R1 to R4 (R20) -/
  regs : Regs
  /-- guest memory: the bytes that are not 0, by rising address (R39, R200) -/
  mem : List Host.Cell
  /-- MEM_LEN (R8) -/
  memLen : Nat
  /-- the syscall table (R38) -/
  sys : SyscallTable
  /-- the bytecode BC of the call (R8, R39) -/
  bc : List Byte
  /-- the instruction pointer (R28) -/
  pc : Word
  /-- the stop flag (R37) -/
  stop : Bool
  /-- MAX_CPU_TIME, 0 for unlimited (R36) -/
  maxCpuTime : Nat
  /-- the dispatcher's status (R43) -/
  mode : Mode
  /-- the model's own: the inputs to come -/
  env : Env
  deriving DecidableEq, Repr

/-- Why a step stops with a fault. There is no such reason: every error of the spec ends the execute call and is a next
state whose mode is `done` (60_exceptions.md R179; DEDUCED, safe, log 1). -/
inductive Fault where
  deriving DecidableEq, Repr

/-- Why the model gives a step no meaning. -/
inductive Refusal where
  /-- Raised by `exec` for an instruction that has no meaning yet; no arm does (safe). -/
  | notModelled (mnemonic : String)
  /-- Raised by `step` in a running state with `pc > BC_LEN`, which no run reaches (R30, I16: refuse; safe, log 13). -/
  | pcBeyondBytecode
  /-- Raised by `step` in a syscall wait whose id is not in the table, which no run reaches (R170; safe, log 13). -/
  | noCallbackToWaitFor
  /-- Raised by `step` when a callback calls execute on the same VM (R175, I8: refuse; safe, log 14). -/
  | callbackReenters
  /-- Raised by `step` when the host constructs a memory or submits a bytecode longer than `2^64 - 1` bytes (R8, D17, R188:
  the host must not; safe, log 15). -/
  | hostArgumentTooLarge
  deriving DecidableEq, Repr

/-- The inputs of a machine about which nothing is fixed. -/
def Env.free : Env := { stops := [], answers := [], commands := [], draws := 0 }

/-- construct(memory_length, max_cpu_time) (70_reset_and_hazards.md R200): registers 0, memory zeroed, table empty, no
call in progress. `pc`, `stop` and `bc` have no value then (R44): DESIGN CHOICE 0, false, empty (unsafe, log 3). -/
def State.construct (memoryLength maxCpuTime : Nat) : State :=
  { regs := { r1 := 0, r2 := 0, r3 := 0, r4 := 0 }
    mem := []
    memLen := memoryLength
    sys := []
    bc := []
    pc := 0
    stop := false
    maxCpuTime := maxCpuTime
    mode := .idle
    env := Env.free }

/-- The machine right after power-on reset, which is construct (R200), with the arguments of `Config` (log 2). -/
def State.reset : State := State.construct Config.memoryLength Config.maxCpuTime

end Sys2Proof.Machine
end

