-- ==== Sys2Proof/Machine/Ops.lean ====
section
/-! DEFINITION. The named operations over the state: registers, guest memory and its bounds check, the instruction
pointer, ending a call with success or with an error (the block's only exception entry, 60_exceptions.md R179), starting a
call, the host's operations, and the free draws. -/

namespace Sys2Proof.Machine

/-! ### Registers (10_state.md R20) -/

/-- The value of a register (R12, R26). -/
def regGet (rs : Regs) : Reg → Word
  | .r1 => rs.r1
  | .r2 => rs.r2
  | .r3 => rs.r3
  | .r4 => rs.r4

/-- The register file with one register written (R12). -/
def regSet (rs : Regs) (r : Reg) (v : Word) : Regs :=
  match r with
  | .r1 => { rs with r1 := v }
  | .r2 => { rs with r2 := v }
  | .r3 => { rs with r3 := v }
  | .r4 => { rs with r4 := v }

/-- `x[r]` (R12). -/
def State.reg (s : State) (r : Reg) : Word := regGet s.regs r

/-- `x[r] <- v` (R12). -/
def State.setReg (s : State) (r : Reg) (v : Word) : State := { s with regs := regSet s.regs r v }

/-! ### Guest memory (20_memory.md R50 to R56) -/

/-- What a byte of memory that is not listed holds: 0, as construct leaves it (R200). -/
def unlistedByte : Byte := 0

/-- `M[a]` (R14). -/
def readByte : List Host.Cell → Nat → Byte
  | [], _ => unlistedByte
  | (k, b) :: m, a => if k = a then b else readByte m a

/-- `M[a] <- v`, keeping the list's one form: rising addresses, no byte listed that is 0 (R14). -/
def writeByte : List Host.Cell → Nat → Byte → List Host.Cell
  | [], a, v => if v = unlistedByte then [] else [(a, v)]
  | (k, b) :: m, a, v =>
    if a < k then (if v = unlistedByte then (k, b) :: m else (a, v) :: (k, b) :: m)
    else if a = k then (if v = unlistedByte then m else (a, v) :: m)
    else (k, b) :: writeByte m a v

/-- The `n` bytes from address `a` on. -/
def readBytes (m : List Host.Cell) (a : Nat) : Nat → List Byte
  | 0 => []
  | n + 1 => readByte m a :: readBytes m (a + 1) n

/-- Bytes written from address `a` on. -/
def writeBytes (m : List Host.Cell) (a : Nat) : List Byte → List Host.Cell
  | [] => m
  | b :: bs => writeBytes (writeByte m a b) (a + 1) bs

/-- `MemRead(a, n)`: `n` bytes as a little-endian unsigned number (R14, R50). -/
def memRead (m : List Host.Cell) (a n : Nat) : Nat := leNat (readBytes m a n)

/-- `MemWrite(a, n, v)`: the low `n` bytes of `v`, least significant first (R14, R50). -/
def memWrite (m : List Host.Cell) (a n : Nat) (v : Word) : List Host.Cell := writeBytes m a (leBytes n v.toNat)

/-- The one form of a memory's list: addresses strictly rising, and no byte listed that an unlisted byte already is. -/
def Memory.wf (m : List Host.Cell) : Bool :=
  decide (m.Pairwise fun x y => x.1 < y.1) && m.all fun c => c.2 != unlistedByte

/-- Every listed address lies inside a memory of this length (R39). -/
def Memory.within (m : List Host.Cell) (len : Nat) : Bool := m.all fun c => decide (c.1 < len)

/-- `InBounds(a, n)`: the access lies inside memory, in exact arithmetic (R53, C2, D2). -/
def State.inBounds (s : State) (a : Word) (n : Nat) : Bool := decide (a.toNat + n ≤ s.memLen)

/-! ### The instruction pointer and the end of a call -/

/-- `pc <- pc + 1 + w`: past the opcode and `w` operand bytes (40_dispatch.md R96). -/
def State.advance (s : State) (w : Nat) : State := { s with pc := s.pc + BitVec.ofNat 64 (1 + w) }

/-- `pc <- t`: a taken jump (R96). -/
def State.jumpTo (s : State) (t : Word) : State := { s with pc := t }

/-- `raise K`: taking an exception. The call ends at once with the error; nothing is saved, no handler is entered, and
nothing else is written: registers, memory and `pc` stay as they were (00_scope.md R15, 60_exceptions.md R179, R180). -/
def State.raise (s : State) (k : ErrorKind) : State := { s with mode := .done (.error k) }

/-- Halt: the call ends with success and nothing else changes (40_dispatch.md R90). -/
def State.halt (s : State) : State := { s with mode := .done .success }

/-- The code of a result on the result interface (R176, D13). -/
def resultCode : Result → Nat
  | .success => 0
  | .error .invalidInstructionArgument => 1
  | .error .invalidMemoryLocation => 2
  | .error .invalidSyscall => 3
  | .error .cpuTimeExhausted => 4
  | .error .unknownInstruction => 5
  | .error (.callbackError _) => 6

/-- execute(bytecode), the start of a call: `pc <- 0`, `stop <- 0`, the bytecode is the call's, the dispatcher runs. The
registers, memory and table keep their values (40_dispatch.md R100, 70_reset_and_hazards.md R201). There is no return
from an abort: this is how a machine whose call has ended runs again (60_exceptions.md R181). -/
def State.beginCall (s : State) (bytecode : List Byte) : State :=
  { s with bc := bytecode, pc := 0, stop := false, mode := .running }

/-! ### The syscall table (10_state.md R38) -/

/-- The callback registered under an id. -/
def sysLookup : SyscallTable → Word → Option CallbackId
  | [], _ => none
  | (k, cb) :: t, id => if k = id then some cb else sysLookup t id

/-- register_syscall: an id already there gets the new callback (DEDUCED: the table is a map; unsafe, log 16). -/
def sysInsert : SyscallTable → Word → CallbackId → SyscallTable
  | [], id, cb => [(id, cb)]
  | (k, c) :: t, id, cb =>
    if id < k then (id, cb) :: (k, c) :: t
    else if id = k then (id, cb) :: t
    else (k, c) :: sysInsert t id cb

/-- unregister: an id that is not there changes nothing (DEDUCED; unsafe, log 16). -/
def sysErase : SyscallTable → Word → SyscallTable
  | [], _ => []
  | (k, c) :: t, id => if k = id then t else (k, c) :: sysErase t id

/-- The one form of a syscall table: ids strictly rising. -/
def sysSorted (t : SyscallTable) : Bool := decide (t.Pairwise fun x y => x.1 < y.1)

/-! ### The host's operations (10_state.md R40, R42; 60_exceptions.md R188) -/

/-- clear_registers: all four registers 0, nothing else (R202). -/
def State.clearRegisters (s : State) : State := { s with regs := { r1 := 0, r2 := 0, r3 := 0, r4 := 0 } }

/-- clear_memory: every byte 0; the length, registers and table stay (R203). -/
def State.clearMemory (s : State) : State := { s with mem := [] }

/-- register_syscall(id, callback) (R38). -/
def State.registerSyscall (s : State) (id : Word) (cb : CallbackId) : State := { s with sys := sysInsert s.sys id cb }

/-- unregister(id) (R38). -/
def State.unregisterSyscall (s : State) (id : Word) : State := { s with sys := sysErase s.sys id }

/-- The host writes a byte of memory (R40, R173). DESIGN CHOICE: an address outside memory names no byte of `M`, and
nothing is written (safe, log 17). -/
def State.hostWriteByte (s : State) (a : Nat) (b : Byte) : State :=
  if a < s.memLen then { s with mem := writeByte s.mem a b } else s

/-- One write of the host (R173, R188). -/
def State.applyWrite (s : State) : HostWrite → State
  | .setReg r v => s.setReg r v
  | .writeByte a b => s.hostWriteByte a b
  | .registerSyscall id cb => s.registerSyscall id cb
  | .unregisterSyscall id => s.unregisterSyscall id
  | .clearRegisters => s.clearRegisters
  | .clearMemory => s.clearMemory

/-- The writes a callback made, in its order (R173). -/
def State.applyWrites (s : State) : List HostWrite → State
  | [] => s
  | w :: ws => (s.applyWrite w).applyWrites ws

/-- What a callback sees (48_syscall.md R171). -/
def State.view (s : State) : View := { regs := s.regs, mem := s.mem, memLen := s.memLen, sys := s.sys }

/-- The operand width of Syscall (R170). -/
def syscallWidth : Nat := 8

/-- The end, or not yet the end, of a syscall wait (48_syscall.md R172 to R175). `Ok` continues behind the Syscall with
what the callback left, R4 included (D8); `Err(E)` ends the call with exactly `E`, and what the callback wrote stays (D10). -/
def State.respond (s : State) : HostAnswer → Host.Outcome State Fault Refusal
  | .stillRunning => .next s
  | .ok ws => .next { (s.applyWrites ws).advance syscallWidth with mode := .running }
  | .err e ws => .next ((s.applyWrites ws).raise (.callbackError e))
  | .reenters => .refused .callbackReenters

/-- What the host does between calls (10_state.md R42; bounds of 00_scope.md R8). A construct begins a new VM; the inputs
to come are the outside's and stay. -/
def State.perform (s : State) : HostCommand → Host.Outcome State Fault Refusal
  | .nothing => .next s
  | .write w => .next (s.applyWrite w)
  | .construct m t =>
    if m < 2 ^ 64 then .next { State.construct m t with env := s.env } else .refused .hostArgumentTooLarge
  | .execute bytecode =>
    if bytecode.length < 2 ^ 64 then .next (s.beginCall bytecode) else .refused .hostArgumentTooLarge

/-! ### The inputs of the block -/

/-- The next sample of the stop flag's input: what the state fixes, else a free draw (40_dispatch.md R103). -/
def Env.nextStop (e : Env) : Bool × Env :=
  match e.stops with
  | d :: ds => (d, { e with stops := ds })
  | [] => (Config.stopDraw e.draws, { e with draws := e.draws + 1 })

/-- What the callback answers at this step of the wait: what the state fixes, else a free draw (48_syscall.md R171). -/
def Env.nextAnswer (e : Env) (cb : CallbackId) (v : View) : HostAnswer × Env :=
  match e.answers with
  | a :: as => (a, { e with answers := as })
  | [] => (Config.callback cb v e.draws, { e with draws := e.draws + 1 })

/-- What the host does at this step between calls: what the state fixes, else a free draw (10_state.md R42). -/
def Env.nextCommand (e : Env) : HostCommand × Env :=
  match e.commands with
  | c :: cs => (c, { e with commands := cs })
  | [] => (Config.command e.draws, { e with draws := e.draws + 1 })

/-- The stop flag as this step samples it: it may have become 1, and stays 1 once it is 1 (10_state.md R37, R103). With
`MAX_CPU_TIME = 0` there is no watcher and nothing is sampled (R37, R91). -/
def State.sampleStop (s : State) : State :=
  if s.maxCpuTime = 0 then s
  else { s with stop := s.stop || s.env.nextStop.1, env := s.env.nextStop.2 }

end Sys2Proof.Machine
end

