-- ==== Sys2Proof/Machine/Flags.lean ====
section
/-! DEFINITION. The block's only flag: R4, the division-by-zero latch (10_state.md R33, 45_arithmetic.md R145). -/

namespace Sys2Proof.Machine

/-- R4 after a successful instruction other than a div or mod by 0, a jump or a Syscall (R33). -/
def State.clearLatch (s : State) : State := s.setReg .r4 0

/-- R4 after a div or mod by 0 (R33). -/
def State.setLatch (s : State) : State := s.setReg .r4 1

end Sys2Proof.Machine
end

