-- ==== Sys2Proof/Machine/Operands.lean ====
section
/-! DEFINITION. The operand forms: an immediate zero-extended to 64 bits (30_encoding.md R74), a register written and the
latch cleared, an absolute memory address with its bounds check (20_memory.md R53), an absolute jump target with its check
(47_control_flow.md R158, R161), and the signed reading of a register (00_scope.md R10). -/

namespace Sys2Proof.Machine

/-- An immediate, zero-extended to 64 bits (R74). -/
def zext {n : Nat} (imm : BitVec n) : Word := imm.setWidth 64

/-- The signed reading of a 64-bit value (00_scope.md R10). -/
def s64 (v : Word) : Int := v.toInt

/-- The 64-bit value of an integer modulo `2^64` (00_scope.md R10). -/
def u64 (n : Int) : Word := BitVec.ofInt 64 n

/-- The end of most instructions: a register is written, R4 is cleared, and `pc` passes `w` operand bytes (R33, R96). The
register is written before R4, from a value that was read before both. -/
def State.result (s : State) (r : Reg) (v : Word) (w : Nat) : Host.Outcome State Fault Refusal :=
  .next ((s.setReg r v).clearLatch.advance w)

/-- A load of `n` bytes into R1 (42_memory_loads.md R115 to R118). -/
def State.loadR1 (s : State) (n : Nat) (a : Word) : Host.Outcome State Fault Refusal :=
  if s.inBounds a n then s.result .r1 (BitVec.ofNat 64 (memRead s.mem a.toNat n)) 8
  else .next (s.raise .invalidMemoryLocation)

/-- A store of the low `n` bytes of R1 (44_memory_stores.md R130 to R133). -/
def State.dumpR1 (s : State) (n : Nat) (a : Word) : Host.Outcome State Fault Refusal :=
  if s.inBounds a n then
    .next (State.clearLatch { s with mem := memWrite s.mem a.toNat n (s.reg .r1) } |>.advance 8)
  else .next (s.raise .invalidMemoryLocation)

/-- A move between registers: the source is read before R4 is cleared (43_register_moves.md). -/
def State.move (s : State) (src dst : Reg) : Host.Outcome State Fault Refusal := s.result dst (s.reg src) 0

/-- An instruction whose result in R1 is computed from R1 and R2 (45_arithmetic.md, 46_bitwise.md). -/
def State.binary (s : State) (f : Word → Word → Word) : Host.Outcome State Fault Refusal :=
  s.result .r1 (f (s.reg .r1) (s.reg .r2)) 0

/-- A div or mod: with R2 = 0, R1 stays and R4 becomes 1; otherwise the result goes to R1 and R4 becomes 0
(45_arithmetic.md R140 to R143). -/
def State.divide (s : State) (f : Word → Word → Word) : Host.Outcome State Fault Refusal :=
  if s.reg .r2 = 0 then .next (s.setLatch.advance 0) else s.binary f

/-- A jump target is legal when it lies inside the bytecode (47_control_flow.md R158). -/
def State.legalTarget (s : State) (t : Word) : Bool := decide (t.toNat < s.bc.length)

/-- A conditional jump (47_control_flow.md R161). A target that is not legal ends the call when the jump is taken, and
when it is not taken and `UNTAKEN_TARGET_CHECK` holds; registers and R4 stay. -/
def State.branch (s : State) (taken : Bool) (t : Word) : Host.Outcome State Fault Refusal :=
  if s.legalTarget t then .next (if taken then s.jumpTo t else s.advance 8)
  else if taken || Config.untakenTargetCheck then .next (s.raise .invalidMemoryLocation)
  else .next (s.advance 8)

end Sys2Proof.Machine
end

