-- ==== Sys2Proof/Machine/Arithmetic.lean ====
section
/-! DEFINITION. The ALU: add, subtract, divide, remainder on R1 and R2, result in R1 (45_arithmetic.md R135 to R146). -/

namespace Sys2Proof.Machine

/-- UnsignedAdd (R135): the sum modulo 2^64. -/
def execUnsignedAdd (s : State) : Host.Outcome State Fault Refusal :=
  s.binary fun a b => u64 (a.toNat + b.toNat)

/-- SignedAdd (R136): the sum of the signed readings modulo 2^64. -/
def execSignedAdd (s : State) : Host.Outcome State Fault Refusal :=
  s.binary fun a b => u64 (s64 a + s64 b)

/-- UnsignedSub (R137): the difference modulo 2^64. -/
def execUnsignedSub (s : State) : Host.Outcome State Fault Refusal :=
  s.binary fun a b => u64 ((a.toNat : Int) - b.toNat)

/-- SignedSub (R138): the difference of the signed readings modulo 2^64. -/
def execSignedSub (s : State) : Host.Outcome State Fault Refusal :=
  s.binary fun a b => u64 (s64 a - s64 b)

/-- UnsignedDiv (R140): the quotient rounded down. -/
def execUnsignedDiv (s : State) : Host.Outcome State Fault Refusal :=
  s.divide fun a b => u64 (a.toNat / b.toNat : Nat)

/-- SignedDiv (R141): the quotient of the signed readings rounded toward zero; -2^63 / -1 wraps (D4, log 19). -/
def execSignedDiv (s : State) : Host.Outcome State Fault Refusal :=
  s.divide fun a b => u64 ((s64 a).tdiv (s64 b))

/-- UnsignedMod (R142): the remainder. -/
def execUnsignedMod (s : State) : Host.Outcome State Fault Refusal :=
  s.divide fun a b => u64 (a.toNat - b.toNat * (a.toNat / b.toNat) : Nat)

/-- SignedMod (R143): the remainder of the truncating division (D5, log 19). -/
def execSignedMod (s : State) : Host.Outcome State Fault Refusal :=
  s.divide fun a b => u64 (s64 a - s64 b * (s64 a).tdiv (s64 b))


end Sys2Proof.Machine
end

