-- ==== Sys2Proof/Machine/Bitwise.lean ====
section
/-! DEFINITION. Bitwise and shift instructions on R1 and R2 (46_bitwise.md R150 to R156). -/

namespace Sys2Proof.Machine

/-- The result of a shift: exact below 64, SHIFT_WIDE from 64 on (R153). -/
def shifted (dir : ShiftDir) (v c : Word) : Word :=
  if c.toNat < 64 then
    match dir with
    | .left => u64 (v.toNat * 2 ^ c.toNat : Nat)
    | .right => u64 (v.toNat / 2 ^ c.toNat : Nat)
  else Config.shiftWide dir v c

/-- And (R150): bitwise and. -/
def execAnd (s : State) : Host.Outcome State Fault Refusal := s.binary fun a b => a &&& b

/-- Or (R151): bitwise or. -/
def execOr (s : State) : Host.Outcome State Fault Refusal := s.binary fun a b => a ||| b

/-- Xor (R152): bitwise exclusive or. -/
def execXor (s : State) : Host.Outcome State Fault Refusal := s.binary fun a b => a ^^^ b

/-- LeftShift (R154): R1 shifted left by R2. -/
def execLeftShift (s : State) : Host.Outcome State Fault Refusal := s.binary (shifted .left)

/-- RightShift (R155): R1 shifted right by R2, zeros entering at bit 63 (log 27). -/
def execRightShift (s : State) : Host.Outcome State Fault Refusal := s.binary (shifted .right)


end Sys2Proof.Machine
end

