-- ==== Sys2Proof/Machine/ControlFlow.lean ====
section
/-! DEFINITION. Jumps and the conditional branch resolver (47_control_flow.md R158 to R169). -/

namespace Sys2Proof.Machine

/-- Jmp (R159): the target must lie inside the bytecode. -/
def execJmp (t : Word) (s : State) : Host.Outcome State Fault Refusal :=
  if s.legalTarget t then .next (s.jumpTo t) else .next (s.raise .invalidMemoryLocation)

/-- JmpIfEq (R162), on the unsigned values of R1 and R3 (R160). -/
def execJmpIfEq (t : Word) (s : State) : Host.Outcome State Fault Refusal :=
  s.branch (s.reg .r1 == s.reg .r3) t

/-- JmpIfNe (R163), on the unsigned values of R1 and R3 (R160). -/
def execJmpIfNe (t : Word) (s : State) : Host.Outcome State Fault Refusal :=
  s.branch (s.reg .r1 != s.reg .r3) t

/-- JmpIfGt (R164), on the unsigned values of R1 and R3 (R160). -/
def execJmpIfGt (t : Word) (s : State) : Host.Outcome State Fault Refusal :=
  s.branch (decide ((s.reg .r3).toNat < (s.reg .r1).toNat)) t

/-- JmpIfLt (R165), on the unsigned values of R1 and R3 (R160). -/
def execJmpIfLt (t : Word) (s : State) : Host.Outcome State Fault Refusal :=
  s.branch (decide ((s.reg .r1).toNat < (s.reg .r3).toNat)) t

/-- JmpIfGtOrEq (R166), on the unsigned values of R1 and R3 (R160). -/
def execJmpIfGtOrEq (t : Word) (s : State) : Host.Outcome State Fault Refusal :=
  s.branch (decide ((s.reg .r3).toNat ≤ (s.reg .r1).toNat)) t

/-- JmpIfLtOrEq (R167), on the unsigned values of R1 and R3 (R160). -/
def execJmpIfLtOrEq (t : Word) (s : State) : Host.Outcome State Fault Refusal :=
  s.branch (decide ((s.reg .r1).toNat ≤ (s.reg .r3).toNat)) t


end Sys2Proof.Machine
end

