-- ==== Sys2Proof/Machine/ImmediateLoads.lean ====
section
/-! DEFINITION. Immediate loads into R1 (41_immediate_loads.md R110 to R114). -/

namespace Sys2Proof.Machine

/-- Load-U8 (R110): R1 <- the immediate, zero-extended. -/
def execLoadU8 (imm : BitVec 8) (s : State) : Host.Outcome State Fault Refusal := s.result .r1 (zext imm) 1

/-- Load-U16 (R111): R1 <- the immediate, zero-extended. -/
def execLoadU16 (imm : BitVec 16) (s : State) : Host.Outcome State Fault Refusal := s.result .r1 (zext imm) 2

/-- Load-U32 (R112): R1 <- the immediate, zero-extended. -/
def execLoadU32 (imm : BitVec 32) (s : State) : Host.Outcome State Fault Refusal := s.result .r1 (zext imm) 4

/-- Load-U64 (R113): R1 <- the immediate, zero-extended. -/
def execLoadU64 (imm : BitVec 64) (s : State) : Host.Outcome State Fault Refusal := s.result .r1 (zext imm) 8


end Sys2Proof.Machine
end

