-- ==== Sys2Proof/Machine/MemoryLoads.lean ====
section
/-! DEFINITION. Memory loads into R1, zero-extended (42_memory_loads.md R115 to R119). -/

namespace Sys2Proof.Machine

/-- MemLoad-U8 (R115). -/
def execMemLoadU8 (addr : Word) (s : State) : Host.Outcome State Fault Refusal := s.loadR1 1 addr

/-- MemLoad-U16 (R116). -/
def execMemLoadU16 (addr : Word) (s : State) : Host.Outcome State Fault Refusal := s.loadR1 2 addr

/-- MemLoad-U32 (R117). -/
def execMemLoadU32 (addr : Word) (s : State) : Host.Outcome State Fault Refusal := s.loadR1 4 addr

/-- MemLoad-U64 (R118). -/
def execMemLoadU64 (addr : Word) (s : State) : Host.Outcome State Fault Refusal := s.loadR1 8 addr


end Sys2Proof.Machine
end

