-- ==== Sys2Proof/Machine/Moves.lean ====
section
/-! DEFINITION. Register moves (43_register_moves.md R120 to R129). -/

namespace Sys2Proof.Machine

/-- MoveR1->R2 (R120). -/
def execMoveR1R2 (s : State) : Host.Outcome State Fault Refusal := s.move .r1 .r2

/-- MoveR1->R3 (R121). -/
def execMoveR1R3 (s : State) : Host.Outcome State Fault Refusal := s.move .r1 .r3

/-- MoveR2->R1 (R122). -/
def execMoveR2R1 (s : State) : Host.Outcome State Fault Refusal := s.move .r2 .r1

/-- MoveR2->R3 (R123). -/
def execMoveR2R3 (s : State) : Host.Outcome State Fault Refusal := s.move .r2 .r3

/-- MoveR3->R1 (R124). -/
def execMoveR3R1 (s : State) : Host.Outcome State Fault Refusal := s.move .r3 .r1

/-- MoveR3->R2 (R125). -/
def execMoveR3R2 (s : State) : Host.Outcome State Fault Refusal := s.move .r3 .r2

/-- MoveR4->R1 (R126). -/
def execMoveR4R1 (s : State) : Host.Outcome State Fault Refusal := s.move .r4 .r1

/-- MoveR4->R2 (R127). -/
def execMoveR4R2 (s : State) : Host.Outcome State Fault Refusal := s.move .r4 .r2

/-- MoveR4->R3 (R128). -/
def execMoveR4R3 (s : State) : Host.Outcome State Fault Refusal := s.move .r4 .r3


end Sys2Proof.Machine
end

