-- ==== Sys2Proof/Machine/Stores.lean ====
section
/-! DEFINITION. Memory stores of the low bytes of R1 (44_memory_stores.md R130 to R134). -/

namespace Sys2Proof.Machine

/-- Dump-U8 (R130). -/
def execDumpU8 (addr : Word) (s : State) : Host.Outcome State Fault Refusal := s.dumpR1 1 addr

/-- Dump-U16 (R131). -/
def execDumpU16 (addr : Word) (s : State) : Host.Outcome State Fault Refusal := s.dumpR1 2 addr

/-- Dump-U32 (R132). -/
def execDumpU32 (addr : Word) (s : State) : Host.Outcome State Fault Refusal := s.dumpR1 4 addr

/-- Dump-U64 (R133). -/
def execDumpU64 (addr : Word) (s : State) : Host.Outcome State Fault Refusal := s.dumpR1 8 addr


end Sys2Proof.Machine
end

