-- ==== Sys2Proof/Machine/Syscall.lean ====
section
/-! DEFINITION. Syscall and the syscall port (48_syscall.md R170 to R175). -/

namespace Sys2Proof.Machine

/-- Syscall (R170): the lookup comes first and a failing one writes nothing (D19, log 20); then R4 is cleared and the
syscall port waits for the callback. The rest of the instruction is `State.respond`, when the host answers (R172). -/
def execSyscall (id : Word) (s : State) : Host.Outcome State Fault Refusal :=
  match sysLookup s.sys id with
  | none => .next (s.raise .invalidSyscall)
  | some _ => .next { s.clearLatch with mode := .waitHost id }


end Sys2Proof.Machine
end

