-- ==== Sys2Proof/Machine/Dispatch.lean ====
section
/-! DEFINITION. One arm for each instruction: the execute part of a step (40_dispatch.md R95). -/

namespace Sys2Proof.Machine

/-- The execute part of a step: the instruction's own rule, on a state whose `pc` is at its opcode byte and whose operand
bytes have passed the operand check (R95). -/
def exec (i : Instr) (s : State) : Host.Outcome State Fault Refusal :=
  match i with
  | .loadU8 imm => Sys2Proof.Machine.execLoadU8 imm s
  | .loadU16 imm => Sys2Proof.Machine.execLoadU16 imm s
  | .loadU32 imm => Sys2Proof.Machine.execLoadU32 imm s
  | .loadU64 imm => Sys2Proof.Machine.execLoadU64 imm s
  | .memLoadU8 addr => Sys2Proof.Machine.execMemLoadU8 addr s
  | .memLoadU16 addr => Sys2Proof.Machine.execMemLoadU16 addr s
  | .memLoadU32 addr => Sys2Proof.Machine.execMemLoadU32 addr s
  | .memLoadU64 addr => Sys2Proof.Machine.execMemLoadU64 addr s
  | .moveR1R2 => Sys2Proof.Machine.execMoveR1R2 s
  | .moveR1R3 => Sys2Proof.Machine.execMoveR1R3 s
  | .moveR2R1 => Sys2Proof.Machine.execMoveR2R1 s
  | .moveR2R3 => Sys2Proof.Machine.execMoveR2R3 s
  | .moveR3R1 => Sys2Proof.Machine.execMoveR3R1 s
  | .moveR3R2 => Sys2Proof.Machine.execMoveR3R2 s
  | .moveR4R1 => Sys2Proof.Machine.execMoveR4R1 s
  | .moveR4R2 => Sys2Proof.Machine.execMoveR4R2 s
  | .moveR4R3 => Sys2Proof.Machine.execMoveR4R3 s
  | .dumpU8 addr => Sys2Proof.Machine.execDumpU8 addr s
  | .dumpU16 addr => Sys2Proof.Machine.execDumpU16 addr s
  | .dumpU32 addr => Sys2Proof.Machine.execDumpU32 addr s
  | .dumpU64 addr => Sys2Proof.Machine.execDumpU64 addr s
  | .unsignedAdd => Sys2Proof.Machine.execUnsignedAdd s
  | .signedAdd => Sys2Proof.Machine.execSignedAdd s
  | .unsignedSub => Sys2Proof.Machine.execUnsignedSub s
  | .signedSub => Sys2Proof.Machine.execSignedSub s
  | .unsignedDiv => Sys2Proof.Machine.execUnsignedDiv s
  | .signedDiv => Sys2Proof.Machine.execSignedDiv s
  | .unsignedMod => Sys2Proof.Machine.execUnsignedMod s
  | .signedMod => Sys2Proof.Machine.execSignedMod s
  | .and => Sys2Proof.Machine.execAnd s
  | .or => Sys2Proof.Machine.execOr s
  | .xor => Sys2Proof.Machine.execXor s
  | .leftShift => Sys2Proof.Machine.execLeftShift s
  | .rightShift => Sys2Proof.Machine.execRightShift s
  | .jmp t => Sys2Proof.Machine.execJmp t s
  | .jmpIfEq t => Sys2Proof.Machine.execJmpIfEq t s
  | .jmpIfNe t => Sys2Proof.Machine.execJmpIfNe t s
  | .jmpIfGt t => Sys2Proof.Machine.execJmpIfGt t s
  | .jmpIfLt t => Sys2Proof.Machine.execJmpIfLt t s
  | .jmpIfGtOrEq t => Sys2Proof.Machine.execJmpIfGtOrEq t s
  | .jmpIfLtOrEq t => Sys2Proof.Machine.execJmpIfLtOrEq t s
  | .syscall id => Sys2Proof.Machine.execSyscall id s

end Sys2Proof.Machine
end

