-- ==== Sys2Proof/Machine/Cycle.lean ====
section
/-! DEFINITION. What one step does in each status of the dispatcher: run an instruction of the call (40_dispatch.md R98),
wait for a callback (48_syscall.md R172), or let the host act between calls (10_state.md R42); and the start of a call on
one given instruction. -/

namespace Sys2Proof.Machine

/-- The error of bytes that do not decode (R92, R93). -/
def decodeErrorKind : DecodeError → ErrorKind
  | .unknownInstruction => .unknownInstruction
  | .invalidInstructionArgument | .noOpcode => .invalidInstructionArgument

/-- The bytes from `pc` to the end of the bytecode. -/
def State.fetchBytes (s : State) : List Byte := s.bc.drop s.pc.toNat

/-- Fetch, decode, operand check and execute (R92 to R95). -/
def State.runInstruction (s : State) : Host.Outcome State Fault Refusal :=
  match decode s.fetchBytes with
  | .error e => .next (s.raise (decodeErrorKind e))
  | .ok (i, _) => exec i s

/-- A step of a call in progress (R98): halt, then the stop input, then the instruction. A state with `pc > BC_LEN` has no
meaning (I16, log 13). -/
def State.runCall (s : State) : Host.Outcome State Fault Refusal :=
  if s.pc.toNat = s.bc.length then .next s.halt
  else if s.bc.length < s.pc.toNat then .refused .pcBeyondBytecode
  else if s.maxCpuTime ≠ 0 ∧ s.sampleStop.stop = true then .next (s.sampleStop.raise .cpuTimeExhausted)
  else s.sampleStop.runInstruction

/-- A step of a syscall wait: the callback registered under the id answers, or has not yet (48_syscall.md R171, R172). The
stop flag is not sampled (R172). -/
def State.waitStep (s : State) (id : Word) : Host.Outcome State Fault Refusal :=
  match sysLookup s.sys id with
  | none => .refused .noCallbackToWaitFor
  | some cb => State.respond { s with env := (s.env.nextAnswer cb s.view).2 } (s.env.nextAnswer cb s.view).1

/-- A step between calls: the host acts, or does nothing (10_state.md R42, log 11). -/
def State.hostStep (s : State) : Host.Outcome State Fault Refusal :=
  State.perform { s with env := s.env.nextCommand.2 } s.env.nextCommand.1

/-- The start of a call on the bytecode that holds one instruction given as a number, with no deadline, so that the next
step runs it (log 4). -/
def State.callOn (s : State) (nbits w : Nat) : State :=
  State.beginCall { s with maxCpuTime := 0 } (tableWordBytes nbits w)

end Sys2Proof.Machine
end

