-- ==== Sys2Proof/Machine/Step.lean ====
section
/-! DEFINITION. One step of the machine (40_dispatch.md R98, R100) and the placing of one instruction where the next step
fetches. -/

namespace Sys2Proof.Machine

/-- One step: an instruction of the call in progress, a step of a syscall wait, or an act of the host between calls. -/
def step (s : State) : Host.Outcome State Fault Refusal :=
  match s.mode with
  | .idle => s.hostStep
  | .running => s.runCall
  | .waitHost id => s.waitStep id
  | .done _ => s.hostStep

/-- The machine with one instruction, given as a number, as the bytecode of a call that is about to run its first step
(log 4). -/
def State.withFetchWord (s : State) (nbits w : Nat) : State := s.callOn nbits w

end Sys2Proof.Machine
end

