-- ==== Sys2Proof/Safety.lean ====
section
/-! DEFINITION. What claims are stated in: the machine's invariant, when a state is about to run an instruction, the
groups of instructions, and the fairness assumption on the deadline (40_dispatch.md R104). -/

namespace Sys2Proof.Safety

open Sys2Proof.Machine

/-- A call is in progress: the dispatcher runs or waits for a callback (10_state.md R42, R43). -/
def InCall (s : State) : Prop := s.mode = .running ∨ ∃ id, s.mode = .waitHost id

/-- The invariant of the machine: construct leaves it and every step keeps it. -/
structure Invariant (s : State) : Prop where
  /-- memory's list has its one form -/
  memForm : Memory.wf s.mem = true
  /-- every listed byte lies inside memory (R39) -/
  memInside : Memory.within s.mem s.memLen = true
  /-- the bound of MEM_LEN (R8) -/
  memLenBound : s.memLen < 2 ^ 64
  /-- the syscall table is a map in its one form (R38) -/
  sysForm : sysSorted s.sys = true
  /-- the bound of BC_LEN (R8) -/
  bcLenBound : s.bc.length < 2 ^ 64
  /-- during a call `pc` is at most BC_LEN (R30) -/
  pcInside : InCall s → s.pc.toNat ≤ s.bc.length
  /-- a syscall wait is for a registered id, at a Syscall whose operand bytes exist (R170) -/
  waitForm : ∀ id, s.mode = .waitHost id → (sysLookup s.sys id).isSome = true ∧ s.pc.toNat + 9 ≤ s.bc.length
  /-- with no deadline the stop flag stays 0 (R37) -/
  noWatcher : s.maxCpuTime = 0 → s.stop = false

/-- The next step runs an instruction: a call is running, `pc` is inside the bytecode, and the stop flag, if it is sampled,
is 0 (R90, R91). -/
abbrev AtInstruction (s : State) : Prop :=
  s.mode = .running ∧ s.pc.toNat < s.bc.length ∧ (s.maxCpuTime = 0 ∨ s.sampleStop.stop = false)

/-- The next step samples the stop flag as 1 (R91). -/
abbrev SamplesStop (s : State) : Prop :=
  s.mode = .running ∧ s.pc.toNat < s.bc.length ∧ s.maxCpuTime ≠ 0 ∧ s.sampleStop.stop = true

/-- A sequence of states that follows the machine as long as a call is in progress (R100). -/
def CallRun (r : Nat → State) : Prop := ∀ n, InCall (r n) → step (r n) = .next (r (n + 1))

/-- The fairness assumption of 40_dispatch.md R104: a call with a deadline that never ends, and that never waits for one
callback for ever, samples the stop flag as 1 at some step. -/
def FairDeadline (r : Nat → State) : Prop :=
  ∀ k, (r k).maxCpuTime ≠ 0 → (∀ n, k ≤ n → InCall (r n)) →
    (∀ n, k ≤ n → ∃ m, n ≤ m ∧ (r m).mode = .running) → ∃ m, k ≤ m ∧ SamplesStop (r m)

/-! ### The groups of instructions of 10_state.md R25 and R33 -/

/-- The memory loads. -/
def isLoad : Instr → Bool
  | .memLoadU8 _ | .memLoadU16 _ | .memLoadU32 _ | .memLoadU64 _ => true
  | _ => false

/-- The memory stores. -/
def isStore : Instr → Bool
  | .dumpU8 _ | .dumpU16 _ | .dumpU32 _ | .dumpU64 _ => true
  | _ => false

/-- The instructions that divide. -/
def isDivision : Instr → Bool
  | .unsignedDiv | .signedDiv | .unsignedMod | .signedMod => true
  | _ => false

/-- The jumps. -/
def isJump : Instr → Bool
  | .jmp _ | .jmpIfEq _ | .jmpIfNe _ | .jmpIfGt _ | .jmpIfLt _ | .jmpIfGtOrEq _ | .jmpIfLtOrEq _ => true
  | _ => false

/-- The moves out of R4. -/
def readsLatch : Instr → Bool
  | .moveR4R1 | .moveR4R2 | .moveR4R3 => true
  | _ => false

end Sys2Proof.Safety
end

