-- ==== Sys2Proof/Certificates/Slice0/Obligations.lean ====
section
/-! DEFINITION. What is claimed of the machine, one definition for each claim, from the numbered rules of spec/. The
helpers under `Sys2Proof.Claims` name the parts that several rules share. -/

namespace Sys2Proof.Claims

open Sys2Proof.Machine Sys2Proof.Safety

/-- The sum of `f k` times `2^(8k)` over `k < n` (00_scope.md R13, R14). -/
def littleEndian (n : Nat) (f : Nat → Nat) : Nat := ((List.range n).map fun k => f k * 2 ^ (8 * k)).sum

/-- Byte `k` of a value: `v[8k+7:8k]` (00_scope.md R11). -/
def byteOf (v : Word) (k : Nat) : Byte := v.extractLsb' (8 * k) 8

/-- The eight operand bytes of format W64, least significant first (30_encoding.md R71). -/
def operandBytes (v : Word) : List Byte :=
  [byteOf v 0, byteOf v 1, byteOf v 2, byteOf v 3, byteOf v 4, byteOf v 5, byteOf v 6, byteOf v 7]

/-- The opcode in format N is this instruction (30_encoding.md R71). -/
def EncodedN (opcode : Byte) (i : Instr) : Prop := ∀ rest, decode (opcode :: rest) = .ok (i, rest)

/-- The opcode in format W64 is this instruction of its operand (30_encoding.md R71). -/
def EncodedW64 (opcode : Byte) (build : Word → Instr) : Prop :=
  ∀ v rest, decode (opcode :: (operandBytes v ++ rest)) = .ok (build v, rest)

/-- The state after an error: the call has ended with it and nothing else has changed (60_exceptions.md R179). -/
def aborted (s : State) (k : ErrorKind) : State := { s with mode := .done (.error k) }

/-- With this opcode at `pc` and fewer than `w` operand bytes behind it, the call ends with
`InvalidInstructionArgument` (40_dispatch.md R93). -/
def TruncationAborts (opcode : Byte) (w : Nat) : Prop :=
  ∀ s, AtInstruction s → s.bc[s.pc.toNat]? = some opcode → s.bc.length < s.pc.toNat + 1 + w →
    step s = .next (aborted s.sampleStop .invalidInstructionArgument)

/-- The rule of an immediate load but for its encoding: the operand check, R1 <- the zero-extended immediate, R4 <- 0,
`pc` behind the instruction, and nothing else (41_immediate_loads.md). -/
def ImmediateLoad {n : Nat} (opcode : Byte) (w : Nat) (len : Word) (build : BitVec n → Instr) : Prop :=
  TruncationAborts opcode w ∧
  ∀ imm s, exec (build imm) s =
    .next { s with regs := { s.regs with r1 := BitVec.ofNat 64 imm.toNat, r4 := 0 }, pc := s.pc + len }

/-- The rule of a memory load of `n` bytes (42_memory_loads.md). -/
def MemoryLoad (opcode : Byte) (n : Nat) (build : Word → Instr) : Prop :=
  EncodedW64 opcode build ∧ TruncationAborts opcode 8 ∧
  ∀ a s,
    (a.toNat + n ≤ s.memLen → exec (build a) s = .next
      { s with
        regs := { s.regs with
          r1 := BitVec.ofNat 64 (littleEndian n fun k => (readByte s.mem (a.toNat + k)).toNat), r4 := 0 }
        pc := s.pc + 9 }) ∧
    (s.memLen < a.toNat + n → exec (build a) s = .next (aborted s .invalidMemoryLocation))

/-- The rule of a memory store of the low `n` bytes of R1: the stored bytes, every byte outside them, and everything
else (44_memory_stores.md). -/
def MemoryStore (opcode : Byte) (n : Nat) (build : Word → Instr) : Prop :=
  EncodedW64 opcode build ∧ TruncationAborts opcode 8 ∧
  ∀ a s,
    (a.toNat + n ≤ s.memLen → ∃ m, exec (build a) s = .next
        { s with mem := m, regs := { s.regs with r4 := 0 }, pc := s.pc + 9 } ∧
      (Memory.wf s.mem = true → ∀ k, k < n → readByte m (a.toNat + k) = byteOf s.regs.r1 k) ∧
      ∀ x, x < a.toNat ∨ a.toNat + n ≤ x → readByte m x = readByte s.mem x) ∧
    (s.memLen < a.toNat + n → exec (build a) s = .next (aborted s .invalidMemoryLocation))

/-- The rule of a move: the old value of the source, then R4 <- 0 (43_register_moves.md). -/
def RegisterMove (opcode : Byte) (i : Instr) (after : Regs → Regs) : Prop :=
  EncodedN opcode i ∧ ∀ s, exec i s = .next { s with regs := { after s.regs with r4 := 0 }, pc := s.pc + 1 }

/-- The rule of an instruction that puts a function of R1 and R2 into R1 and clears R4. -/
def BinaryOp (opcode : Byte) (i : Instr) (f : Word → Word → Word) : Prop :=
  EncodedN opcode i ∧ ∀ s, exec i s =
    .next { s with regs := { s.regs with r1 := f s.regs.r1 s.regs.r2, r4 := 0 }, pc := s.pc + 1 }

/-- The rule of a div or mod: the division-by-zero latch, or the result (45_arithmetic.md R140 to R143). -/
def DivisionOp (opcode : Byte) (i : Instr) (f : Word → Word → Word) : Prop :=
  EncodedN opcode i ∧ ∀ s,
    (s.regs.r2 = 0 → exec i s = .next { s with regs := { s.regs with r4 := 1 }, pc := s.pc + 1 }) ∧
    (s.regs.r2 ≠ 0 → exec i s =
      .next { s with regs := { s.regs with r1 := f s.regs.r1 s.regs.r2, r4 := 0 }, pc := s.pc + 1 })

/-- The rule of a shift: `f` for a count below 64, SHIFT_WIDE from 64 on (46_bitwise.md R153 to R155). -/
def ShiftOp (opcode : Byte) (i : Instr) (dir : ShiftDir) (f : Nat → Nat → Nat) : Prop :=
  EncodedN opcode i ∧ ∀ s,
    (s.regs.r2.toNat < 64 → exec i s = .next
      { s with
        regs := { s.regs with r1 := BitVec.ofNat 64 (f s.regs.r1.toNat s.regs.r2.toNat), r4 := 0 }
        pc := s.pc + 1 }) ∧
    (64 ≤ s.regs.r2.toNat → exec i s = .next
      { s with
        regs := { s.regs with r1 := Config.shiftWide dir s.regs.r1 s.regs.r2, r4 := 0 }, pc := s.pc + 1 })

/-- The rule of a conditional jump, with the condition on R1 and R3 (47_control_flow.md R160, R161). -/
def ConditionalJump (opcode : Byte) (build : Word → Instr) (cond : Word → Word → Prop) : Prop :=
  EncodedW64 opcode build ∧ TruncationAborts opcode 8 ∧
  ∀ t s,
    (cond s.regs.r1 s.regs.r3 → t.toNat < s.bc.length → exec (build t) s = .next { s with pc := t }) ∧
    (cond s.regs.r1 s.regs.r3 → s.bc.length ≤ t.toNat →
      exec (build t) s = .next (aborted s .invalidMemoryLocation)) ∧
    (¬ cond s.regs.r1 s.regs.r3 → t.toNat < s.bc.length → exec (build t) s = .next { s with pc := s.pc + 9 }) ∧
    (¬ cond s.regs.r1 s.regs.r3 → s.bc.length ≤ t.toNat → exec (build t) s =
      .next (if Config.untakenTargetCheck then aborted s .invalidMemoryLocation else { s with pc := s.pc + 9 }))

/-- A state with R4 replaced. -/
def withLatch (s : State) (v : Word) : State := { s with regs := { s.regs with r4 := v } }

end Sys2Proof.Claims

open Sys2Proof Sys2Proof.Machine Sys2Proof.Safety Sys2Proof.Claims

/-! ### Encoding -/

/-- Sanity: a few words written out from the formats of 30_encoding.md R71 and the opcodes of R77. -/
def Obligations.SpecWordsDecode : Prop :=
  decodeTableWord 16 0x0A01 = some (.loadU8 0x0A) ∧
  decodeTableWord 40 0x0098968003 = some (.loadU32 10000000) ∧
  decodeTableWord 72 0x000000000000000105 = some (.memLoadU8 1) ∧
  decodeTableWord 8 0x11 = some .moveR4R3 ∧
  decodeTableWord 72 0x000000000000000112 = some (.dumpU8 1) ∧
  decodeTableWord 8 0x1A = some .unsignedDiv ∧
  decodeTableWord 8 0x22 = some .rightShift ∧
  decodeTableWord 72 0x000000000000000B25 = some (.jmpIfNe 11) ∧
  decodeTableWord 72 0x00000000000000072A = some (.syscall 7) ∧
  decodeTableWord 8 0x00 = none ∧ decodeTableWord 8 0x2B = none

/-- Every instruction's bytes decode to it, whatever follows them (R70 to R72, R77, R80). -/
def Obligations.DecodeOfEncode : Prop :=
  ∀ (i : Instr) (rest : List Byte), decode (encode i ++ rest) = .ok (i, rest)

/-- Bytes that decode to an instruction are its bytes followed by the rest: no bit of them is dropped (R73, R76). -/
def Obligations.EncodeOfDecode : Prop :=
  ∀ (bytes : List Byte) (i : Instr) (rest : List Byte),
    decode bytes = .ok (i, rest) → bytes = encode i ++ rest

/-- R79: 42 opcodes are defined, the other 214 byte values are not, and at one of those the call ends with
`UnknownInstruction` whatever bytes follow. -/
def Obligations.IllegalOpcodesAreUnknown : Prop :=
  (∀ (b : Byte) (rest : List Byte),
    decode (b :: rest) = .error .unknownInstruction ↔ b = 0x00 ∨ 0x2B ≤ b.toNat) ∧
  ((List.range 256).filter fun n => (findOpcode (BitVec.ofNat 8 n)).isSome).length = 42 ∧
  ((List.range 256).filter fun n => (findOpcode (BitVec.ofNat 8 n)).isNone).length = 214 ∧
  ∀ s b, AtInstruction s → s.bc[s.pc.toNat]? = some b → (b = 0x00 ∨ 0x2B ≤ b.toNat) →
    step s = .next (aborted s.sampleStop .unknownInstruction)

/-- The assembler gives an instruction of exactly this opcode and value, gives one for every defined opcode and every
value that fits its operand width, and refuses a value that does not fit (R82; refusing it is the spec's own decision
D16). -/
def Obligations.AssemblerRefusesMisfits : Prop :=
  ∀ (opcode : Byte) (value : Option Nat),
    (∀ i, assemble opcode value = some i → i.opcode = opcode ∧ i.operandValue = value) ∧
    ∀ row, findOpcode opcode = some row →
      (operandFits row.width value = true → ∃ i, assemble opcode value = some i) ∧
      ∀ v, value = some v → 2 ^ (8 * row.width) ≤ v → assemble opcode value = none

/-! ### Memory -/

/-- A memory read of `n` bytes is their little-endian sum, and so is an operand's value (R13, R14, R50, R51). -/
def Obligations.ReadsAreLittleEndian : Prop :=
  (∀ m a n, memRead m a n = littleEndian n fun k => (readByte m (a + k)).toNat) ∧
  ∀ bs : List Byte, leNat bs = littleEndian bs.length fun k => (bs.getD k 0).toNat

/-- R52: after a store of `n` bytes, a load of `j` of them from offset `k` on gives bits `8k` to `8k + 8j - 1` of the
value stored. -/
def Obligations.MixedWidthReads : Prop :=
  ∀ (m : List Host.Cell) (a n : Nat) (v : Word), Memory.wf m = true →
    ∀ k j, k + j ≤ n → memRead (memWrite m a n v) (a + k) j = v.toNat / 2 ^ (8 * k) % 2 ^ (8 * j)

/-- With no memory every load and every store ends the call (R55). -/
def Obligations.EmptyMemoryRefusesAccess : Prop :=
  ∀ i s, s.memLen = 0 → (isLoad i = true ∨ isStore i = true) →
    exec i s = .next (aborted s .invalidMemoryLocation)

/-! ### The step -/

/-- A step of a running call whose bytes at `pc` decode is that instruction's `exec`, on the state as it stands after
the stop flag was sampled; without a deadline that is the state itself (R91, R92, R95). -/
def Obligations.StepRunsDecoded : Prop :=
  ∀ s i rest, AtInstruction s → decode (s.bc.drop s.pc.toNat) = .ok (i, rest) →
    step s = exec i s.sampleStop ∧
    s.sampleStop = { s with stop := s.sampleStop.stop, env := s.sampleStop.env } ∧
    (s.maxCpuTime = 0 → s.sampleStop = s)

/-- A running call with an instruction's bytes at `pc` runs that instruction (R92 to R95). -/
def Obligations.EncodedInstructionRuns : Prop :=
  ∀ s i rest, AtInstruction s → s.bc.drop s.pc.toNat = encode i ++ rest → step s = exec i s.sampleStop

/-- R90: at `pc = BC_LEN`, and nowhere else, a running call ends with success and nothing else changes. -/
def Obligations.HaltsExactlyAtEnd : Prop :=
  ∀ s, s.mode = .running →
    (s.pc.toNat = s.bc.length → step s = .next { s with mode := .done .success }) ∧
    ∀ t, step s = .next t → t.mode = .done .success → s.pc.toNat = s.bc.length

/-- R91: the stop flag ends a call with a deadline before the opcode is read; at `pc = BC_LEN` the call has already
succeeded, which is the spec's own decision D11 (log 21); without a deadline the flag is not sampled. -/
def Obligations.StopEndsCall : Prop :=
  (∀ s, SamplesStop s → step s = .next (aborted s.sampleStop .cpuTimeExhausted)) ∧
  (∀ s, s.mode = .running → s.pc.toNat = s.bc.length → step s = .next { s with mode := .done .success }) ∧
  ∀ s b, s.mode = .running → s.maxCpuTime = 0 → step { s with stop := b } =
    match step s with
    | .next t => .next { t with stop := b }
    | .fault f => .fault f
    | .refused r => .refused r

/-- R93: for every opcode the operand check is `pc + 1 + w <= BC_LEN` in exact arithmetic, where `w` is the operand
width of its row; it fails with `InvalidInstructionArgument` and nothing changes, and with `w = 0` it always passes. -/
def Obligations.OperandCheckIsExact : Prop :=
  ∀ s row, AtInstruction s → row ∈ opcodeTable → s.bc[s.pc.toNat]? = some row.opcode →
    (s.bc.length < s.pc.toNat + 1 + row.width →
      step s = .next (aborted s.sampleStop .invalidInstructionArgument)) ∧
    (s.pc.toNat + 1 + row.width ≤ s.bc.length → ∃ i, i.opcode = row.opcode ∧ step s = exec i s.sampleStop) ∧
    (row.width = 0 → s.pc.toNat + 1 + row.width ≤ s.bc.length)

/-- A running call with `pc` at most BC_LEN always has a next state: it goes on, waits for the host, or has ended
(R16, R30, R95). -/
def Obligations.RunningCallNeverStuck : Prop :=
  ∀ s, s.mode = .running → s.pc.toNat ≤ s.bc.length →
    ∃ t, step s = .next t ∧ t.pc.toNat ≤ s.bc.length ∧
      (t.mode = .running ∨ (∃ id, t.mode = .waitHost id) ∨ ∃ r, t.mode = .done r)

/-- R97: a step of a running call that ends in an error has written no register, no byte of memory and no `pc`; that this
holds of a failing Syscall lookup, R4 included, is the spec's own decision D19 (log 20). The one exception is a Syscall
whose callback fails: exactly the writes of that callback's answer stay, which is the spec's own decision D10 (log 20). -/
def Obligations.AbortsChangeNothing : Prop :=
  (∀ s t k, s.mode = .running → step s = .next t → t.mode = .done (.error k) →
    t = aborted s.sampleStop k) ∧
  ∀ s t id k, s.mode = .waitHost id → step s = .next t → t.mode = .done (.error k) →
    ∃ cb e ws, sysLookup s.sys id = some cb ∧ (s.env.nextAnswer cb s.view).1 = .err e ws ∧
      k = .callbackError e ∧ t.regs = (s.applyWrites ws).regs ∧ t.mem = (s.applyWrites ws).mem ∧
      t.sys = (s.applyWrites ws).sys ∧ t.pc = s.pc

/-- Which errors an instruction itself raises (R176, R178): loads, stores and jumps `InvalidMemoryLocation`, Syscall
`InvalidSyscall`, and no other instruction any. -/
def Obligations.ErrorsByInstruction : Prop :=
  ∀ i s t k, s.mode = .running → exec i s = .next t → t.mode = .done (.error k) →
    (k = .invalidMemoryLocation ∧ (isLoad i = true ∨ isStore i = true ∨ isJump i = true)) ∨
    (k = .invalidSyscall ∧ ∃ id, i = .syscall id)

/-- R29: after an instruction that continues, `pc` is `pc + 1 + w`, the length of its bytes, or the target of a taken
jump, which lies inside the bytecode. -/
def Obligations.PcAfterInstruction : Prop :=
  ∀ i s t, s.mode = .running → exec i s = .next t → t.mode = .running →
    t.pc = s.pc + BitVec.ofNat 64 (1 + i.operandWidth) ∨
    (isJump i = true ∧ i.operandValue = some t.pc.toNat ∧ t.pc.toNat < s.bc.length)

/-! ### The instructions -/

/-- The four immediate loads (R110 to R113): encoding, operand check, effect. -/
def Obligations.ImmediateLoads : Prop :=
  ((∀ (imm : BitVec 8) rest, decode (0x01 :: imm :: rest) = .ok (.loadU8 imm, rest)) ∧
    ImmediateLoad 0x01 1 2 Instr.loadU8) ∧
  ((∀ (imm : BitVec 16) rest,
      decode (0x02 :: imm.extractLsb' 0 8 :: imm.extractLsb' 8 8 :: rest) = .ok (.loadU16 imm, rest)) ∧
    ImmediateLoad 0x02 2 3 Instr.loadU16) ∧
  ((∀ (imm : BitVec 32) rest,
      decode (0x03 :: imm.extractLsb' 0 8 :: imm.extractLsb' 8 8 :: imm.extractLsb' 16 8 ::
        imm.extractLsb' 24 8 :: rest) = .ok (.loadU32 imm, rest)) ∧
    ImmediateLoad 0x03 4 5 Instr.loadU32) ∧
  (EncodedW64 0x04 Instr.loadU64 ∧ ImmediateLoad 0x04 8 9 Instr.loadU64)

/-- The four memory loads (R115 to R118): encoding, operand check, bounds check, effect. -/
def Obligations.MemoryLoads : Prop :=
  MemoryLoad 0x05 1 .memLoadU8 ∧ MemoryLoad 0x06 2 .memLoadU16 ∧ MemoryLoad 0x07 4 .memLoadU32 ∧
  MemoryLoad 0x08 8 .memLoadU64

/-- The nine moves (R120 to R128). -/
def Obligations.RegisterMoves : Prop :=
  RegisterMove 0x09 .moveR1R2 (fun x => { x with r2 := x.r1 }) ∧
  RegisterMove 0x0A .moveR1R3 (fun x => { x with r3 := x.r1 }) ∧
  RegisterMove 0x0B .moveR2R1 (fun x => { x with r1 := x.r2 }) ∧
  RegisterMove 0x0C .moveR2R3 (fun x => { x with r3 := x.r2 }) ∧
  RegisterMove 0x0D .moveR3R1 (fun x => { x with r1 := x.r3 }) ∧
  RegisterMove 0x0E .moveR3R2 (fun x => { x with r2 := x.r3 }) ∧
  RegisterMove 0x0F .moveR4R1 (fun x => { x with r1 := x.r4 }) ∧
  RegisterMove 0x10 .moveR4R2 (fun x => { x with r2 := x.r4 }) ∧
  RegisterMove 0x11 .moveR4R3 (fun x => { x with r3 := x.r4 })

/-- The four memory stores (R130 to R133): encoding, operand check, bounds check, the bytes stored, every other byte. -/
def Obligations.MemoryStores : Prop :=
  MemoryStore 0x12 1 .dumpU8 ∧ MemoryStore 0x13 2 .dumpU16 ∧ MemoryStore 0x14 4 .dumpU32 ∧
  MemoryStore 0x15 8 .dumpU64

/-- Add and subtract, unsigned and on the signed readings, modulo 2^64 (R135 to R138). -/
def Obligations.AddAndSubtract : Prop :=
  BinaryOp 0x16 .unsignedAdd (fun a b => BitVec.ofInt 64 ((a.toNat : Int) + b.toNat)) ∧
  BinaryOp 0x17 .signedAdd (fun a b => BitVec.ofInt 64 (a.toInt + b.toInt)) ∧
  BinaryOp 0x18 .unsignedSub (fun a b => BitVec.ofInt 64 ((a.toNat : Int) - b.toNat)) ∧
  BinaryOp 0x19 .signedSub (fun a b => BitVec.ofInt 64 (a.toInt - b.toInt))

/-- R139: the signed and the unsigned add are the same instruction on every state, and so are the two subtracts; they
are addition and subtraction of 64-bit words. -/
def Obligations.SignedAndUnsignedAgree : Prop :=
  ∀ s, exec .signedAdd s = exec .unsignedAdd s ∧ exec .signedSub s = exec .unsignedSub s ∧
    (∀ t, exec .signedAdd s = .next t → t.regs.r1 = s.regs.r1 + s.regs.r2) ∧
    ∀ t, exec .signedSub s = .next t → t.regs.r1 = s.regs.r1 - s.regs.r2

/-- The unsigned quotient and remainder (R140, R142). -/
def Obligations.UnsignedDivision : Prop :=
  DivisionOp 0x1A .unsignedDiv (fun a b => BitVec.ofNat 64 (a.toNat / b.toNat)) ∧
  DivisionOp 0x1C .unsignedMod (fun a b => BitVec.ofNat 64 (a.toNat - b.toNat * (a.toNat / b.toNat)))

/-- The signed quotient, rounded toward zero and wrapped (R141), and the remainder of that division (R143). That -2^63
/ -1 wraps and that the remainder follows the dividend are the spec's own decisions D4 and D5 (log 19). -/
def Obligations.SignedDivision : Prop :=
  DivisionOp 0x1B .signedDiv (fun a b => BitVec.ofInt 64 (a.toInt.tdiv b.toInt)) ∧
  DivisionOp 0x1D .signedMod (fun a b => BitVec.ofInt 64 (a.toInt - b.toInt * a.toInt.tdiv b.toInt))

/-- The laws of R144 for a divisor that is not 0: unsigned `d = q*v + r` with `r < v`; signed the same modulo 2^64,
with the remainder smaller than the divisor and 0 or of the dividend's sign. That -2^63 / -1 wraps and that the
remainder follows the dividend are the spec's own decisions D4 and D5 (log 19). -/
def Obligations.DivisionLaws : Prop :=
  ∀ s, s.regs.r2 ≠ 0 →
    (∀ q r, exec .unsignedDiv s = .next q → exec .unsignedMod s = .next r →
      s.regs.r1.toNat = q.regs.r1.toNat * s.regs.r2.toNat + r.regs.r1.toNat ∧
      r.regs.r1.toNat < s.regs.r2.toNat) ∧
    ∀ q r, exec .signedDiv s = .next q → exec .signedMod s = .next r →
      s.regs.r1 = q.regs.r1 * s.regs.r2 + r.regs.r1 ∧
      r.regs.r1.toInt.natAbs < s.regs.r2.toInt.natAbs ∧
      (r.regs.r1.toInt = 0 ∨ (0 < r.regs.r1.toInt ∧ 0 < s.regs.r1.toInt) ∨
        (r.regs.r1.toInt < 0 ∧ s.regs.r1.toInt < 0))

/-- And, Or and Xor (R150 to R152), and what they are bit by bit. -/
def Obligations.BitwiseOps : Prop :=
  BinaryOp 0x1E .and (fun a b => a &&& b) ∧ BinaryOp 0x1F .or (fun a b => a ||| b) ∧
  BinaryOp 0x20 .xor (fun a b => a ^^^ b) ∧
  ∀ s n, n < 64 →
    (∀ t, exec .and s = .next t → t.regs.r1.getLsbD n = (s.regs.r1.getLsbD n && s.regs.r2.getLsbD n)) ∧
    (∀ t, exec .or s = .next t → t.regs.r1.getLsbD n = (s.regs.r1.getLsbD n || s.regs.r2.getLsbD n)) ∧
    ∀ t, exec .xor s = .next t → t.regs.r1.getLsbD n = (s.regs.r1.getLsbD n ^^ s.regs.r2.getLsbD n)

/-- The shifts (R154, R155): exact below 64; from 64 on the value is the free parameter SHIFT_WIDE (R153, D6; log 6),
and every other effect is the same. That the right shift is logical is the spec's inference (N13, log 27). -/
def Obligations.Shifts : Prop :=
  ShiftOp 0x21 .leftShift .left (fun v c => v * 2 ^ c) ∧ ShiftOp 0x22 .rightShift .right (fun v c => v / 2 ^ c)

/-- Jmp (R159). -/
def Obligations.UnconditionalJump : Prop :=
  EncodedW64 0x23 .jmp ∧ TruncationAborts 0x23 8 ∧
  ∀ t s,
    (t.toNat < s.bc.length → exec (.jmp t) s = .next { s with pc := t }) ∧
    (s.bc.length ≤ t.toNat → exec (.jmp t) s = .next (aborted s .invalidMemoryLocation))

/-- The six conditional jumps (R162 to R167), comparing R1 with R3 as unsigned values (R160). The not-taken jump with a
target outside the bytecode follows the free parameter UNTAKEN_TARGET_CHECK (R161, log 7). -/
def Obligations.ConditionalJumps : Prop :=
  ConditionalJump 0x24 .jmpIfEq (fun a b => a = b) ∧ ConditionalJump 0x25 .jmpIfNe (fun a b => a ≠ b) ∧
  ConditionalJump 0x26 .jmpIfGt (fun a b => b < a) ∧ ConditionalJump 0x27 .jmpIfLt (fun a b => a < b) ∧
  ConditionalJump 0x28 .jmpIfGtOrEq (fun a b => b ≤ a) ∧ ConditionalJump 0x29 .jmpIfLtOrEq (fun a b => a ≤ b)

/-- The Syscall step (R170): the lookup, R4 <- 0 and the wait; that a failing lookup writes nothing, R4
included, is the spec's own decision D19 (log 20). -/
def Obligations.SyscallStartsWait : Prop :=
  EncodedW64 0x2A .syscall ∧ TruncationAborts 0x2A 8 ∧
  ∀ id s,
    ((∃ cb, (id, cb) ∈ s.sys) → exec (.syscall id) s =
      .next { s with regs := { s.regs with r4 := 0 }, mode := .waitHost id }) ∧
    ((∀ cb, (id, cb) ∉ s.sys) → exec (.syscall id) s = .next (aborted s .invalidSyscall))

/-! ### The syscall port -/

/-- While the callback has not returned, no instruction runs and the stop flag is not sampled, deadline or not (R172).
That registers, memory and table stay as they are until the callback returns is the model's choice (log 10): R172 says
that the host owns them during the wait, and the model shows the callback's writes in the step that ends it. -/
def Obligations.WaitChangesNothing : Prop :=
  ∀ s id cb, s.mode = .waitHost id → sysLookup s.sys id = some cb →
    (s.env.nextAnswer cb s.view).1 = .stillRunning →
    step s = .next { s with env := (s.env.nextAnswer cb s.view).2 }

/-- When the callback returns `Ok`, the machine goes on behind the Syscall with what the callback left; R4 is not
cleared again, and MEM_LEN, the bytecode, `stop` and MAX_CPU_TIME are as before (R173; the spec's own decisions D8 and
D9, log 20). -/
def Obligations.CallbackOkContinues : Prop :=
  ∀ s id cb ws, s.mode = .waitHost id → sysLookup s.sys id = some cb →
    (s.env.nextAnswer cb s.view).1 = .ok ws →
    step s = .next
      { s with
        regs := (s.applyWrites ws).regs, mem := (s.applyWrites ws).mem, sys := (s.applyWrites ws).sys
        pc := s.pc + 9, mode := .running, env := (s.env.nextAnswer cb s.view).2 }

/-- When the callback returns `Err(E)`, the call ends with exactly `E`; what the callback wrote stays, which is the
spec's own decision D10 (log 20), and `pc` does not advance (R174). -/
def Obligations.CallbackErrorEndsCall : Prop :=
  ∀ s id cb e ws, s.mode = .waitHost id → sysLookup s.sys id = some cb →
    (s.env.nextAnswer cb s.view).1 = .err e ws →
    step s = .next
      { s with
        regs := (s.applyWrites ws).regs, mem := (s.applyWrites ws).mem, sys := (s.applyWrites ws).sys
        mode := .done (.error (.callbackError e)), env := (s.env.nextAnswer cb s.view).2 }

/-- Whatever the host answers, a step of a syscall wait leaves MEM_LEN, the bytecode, `stop` and MAX_CPU_TIME alone, and
moves `pc` only behind the Syscall, and only to go on (R173, R174; the spec's own decision D9). -/
def Obligations.CallbackCannotTouch : Prop :=
  ∀ s t id, s.mode = .waitHost id → step s = .next t →
    t.memLen = s.memLen ∧ t.bc = s.bc ∧ t.stop = s.stop ∧ t.maxCpuTime = s.maxCpuTime ∧
    ((t.mode = .running ∧ t.pc = s.pc + 9) ∨ (t.mode ≠ .running ∧ t.pc = s.pc))

/-- A callback may leave any registers, any contents of memory and any syscall table (R173): some list of its writes
does. -/
def Obligations.CallbackMayLeaveAnyView : Prop :=
  ∀ (s : State) (regs : Regs) (mem : List Host.Cell) (sys : SyscallTable),
    Memory.wf mem = true → Memory.within mem s.memLen = true → sysSorted sys = true →
    ∃ ws, s.applyWrites ws = { s with regs := regs, mem := mem, sys := sys }

/-- A callback that calls execute on the same VM is refused (R175; the spec's own decision D15, log 14). -/
def Obligations.ReentryIsRefused : Prop :=
  ∀ s id cb, s.mode = .waitHost id → sysLookup s.sys id = some cb →
    (s.env.nextAnswer cb s.view).1 = .reenters → step s = .refused .callbackReenters

/-! ### The flag latch and what instructions leave alone -/

/-- R33: R4 after a successful instruction: the division's own status; unchanged by a jump; 0 after every other, a
Syscall at the start of its callback among them; after the callback, what it left (D8); unchanged by an instruction
that aborts; 0 after construct. -/
def Obligations.LatchAfterInstruction : Prop :=
  (∀ i s t, s.mode = .running → exec i s = .next t → InCall t →
    t.regs.r4 = if isDivision i then (if s.regs.r2 = 0 then 1 else 0)
      else if isJump i then s.regs.r4 else 0) ∧
  (∀ i s t k, s.mode = .running → exec i s = .next t → t.mode = .done (.error k) → t.regs.r4 = s.regs.r4) ∧
  (∀ (s t : State) ws, s.respond (.ok ws) = .next t → t.regs.r4 = (s.applyWrites ws).regs.r4) ∧
  ∀ m c, (State.construct m c).regs.r4 = 0

/-- No instruction puts into R4 anything but 0 or 1 (R24, R129). -/
def Obligations.InstructionsOnlyLatch : Prop :=
  ∀ i s t, exec i s = .next t → t.regs.r4 = s.regs.r4 ∨ t.regs.r4 = 0 ∨ t.regs.r4 = 1

/-- A program reads R4 only through the three moves out of R4 (R24): any other instruction does the same whatever R4
holds, but for R4 itself. -/
def Obligations.LatchReadOnlyByMoves : Prop :=
  ∀ i s t v, readsLatch i = false → exec i s = .next t →
    ∃ t', exec i (withLatch s v) = .next t' ∧ withLatch t' 0 = withLatch t 0

/-- Only the stores change guest memory (R59). -/
def Obligations.OnlyStoresWriteMemory : Prop :=
  ∀ i s t, isStore i = false → exec i s = .next t → t.mem = s.mem

/-- No instruction changes the bytecode, MEM_LEN, MAX_CPU_TIME, the stop flag or the syscall table (R36, R37, R39,
R68), nor any register the table of R25 does not give it: R3 is written by the moves into R3 alone and R2 by the moves
into R2. -/
def Obligations.InstructionsLeaveAlone : Prop :=
  ∀ i s t, exec i s = .next t →
    t.bc = s.bc ∧ t.memLen = s.memLen ∧ t.maxCpuTime = s.maxCpuTime ∧ t.stop = s.stop ∧ t.sys = s.sys ∧
    t.env = s.env ∧
    (i ∉ [Instr.moveR1R2, .moveR3R2, .moveR4R2] → t.regs.r2 = s.regs.r2) ∧
    (i ∉ [Instr.moveR1R3, .moveR2R3, .moveR4R3] → t.regs.r3 = s.regs.r3)

/-- No instruction can see the stop flag or the deadline (R36, R37): with other values of them, and other inputs to
come, it does the same. -/
def Obligations.DeadlineIsInvisible : Prop :=
  ∀ i s t (b : Bool) (c : Nat) (e : Env), exec i s = .next t →
    exec i { s with stop := b, maxCpuTime := c, env := e } = .next { t with stop := b, maxCpuTime := c, env := e }

/-- During a call the stop flag never goes back to 0, and with no deadline it does not change (R37). -/
def Obligations.StopIsMonotone : Prop :=
  ∀ s t, InCall s → step s = .next t →
    (s.stop = true → t.stop = true) ∧ (s.maxCpuTime = 0 → t.stop = s.stop)

/-- What the watcher does is sampled once, into a flag that it can only set (R37, R103). The inputs to come are
the model's own (log 12), and the free timing is the spec's own decision D12. -/
def Obligations.StopSampleLatches : Prop :=
  ∀ s : State, s.maxCpuTime ≠ 0 →
    s.sampleStop = { s with stop := s.stop || s.env.nextStop.1, env := s.env.nextStop.2 }

/-! ### The host between calls, reset and the invariant -/

/-- R200: construct leaves the registers 0, every byte of a memory of the requested length 0, an empty table, the
requested deadline and no call in progress. -/
def Obligations.ConstructState : Prop :=
  ∀ m c, (State.construct m c).regs = { r1 := 0, r2 := 0, r3 := 0, r4 := 0 } ∧
    (State.construct m c).memLen = m ∧ (∀ a, readByte (State.construct m c).mem a = 0) ∧
    (∀ id, sysLookup (State.construct m c).sys id = none) ∧
    (State.construct m c).maxCpuTime = c ∧ (State.construct m c).mode = .idle ∧
    ¬ InCall (State.construct m c)

/-- Between calls execute(bytecode) starts a call: `pc` and `stop` are 0, and the registers, memory, table and
parameters keep their values (R100, R201). -/
def Obligations.ExecuteStartsCall : Prop :=
  ∀ s (b : List Byte), (s.mode = .idle ∨ ∃ r, s.mode = .done r) → b.length < 2 ^ 64 →
    s.env.nextCommand.1 = .execute b →
    step s = .next { s with bc := b, pc := 0, stop := false, mode := .running, env := s.env.nextCommand.2 }

/-- R202: clear_registers makes every register 0 and changes nothing else; the registers are those that Load-U8 0,
MoveR1->R2 and MoveR1->R3 leave one after another. -/
def Obligations.ClearRegisters : Prop :=
  ∀ s, s.clearRegisters = { s with regs := { r1 := 0, r2 := 0, r3 := 0, r4 := 0 } } ∧
    ∃ t1 t2 t3, exec (.loadU8 0) s = .next t1 ∧ exec .moveR1R2 t1 = .next t2 ∧ exec .moveR1R3 t2 = .next t3 ∧
      t3 = { s.clearRegisters with pc := s.pc + 4 }

/-- clear_memory makes every byte of memory 0 and changes nothing else (R203). -/
def Obligations.ClearMemory : Prop :=
  ∀ s : State, (∀ a, readByte s.clearMemory.mem a = 0) ∧ s.clearMemory = { s with mem := s.clearMemory.mem }

/-- Every state construct leaves meets the invariant, `State.reset` among them. The values that the model chose there
are those of log 2 and log 3; the first part holds for every choice of the first two. -/
def Obligations.InvAfterConstruct : Prop :=
  (∀ m c, m < 2 ^ 64 → Invariant (State.construct m c)) ∧ Invariant State.reset

/-- The invariant is kept by every step, whatever the watcher, the callbacks and the host do: memory and the syscall
table stay in their one form and inside their bounds, `pc` stays at most BC_LEN during a call, a syscall wait is always
for a registered id, and with no deadline the stop flag stays 0 (R8, R30, R37, R39, R170). -/
def Obligations.StepKeepsInvariant : Prop := ∀ s t, Invariant s → step s = .next t → Invariant t

/-- From a state that meets the invariant a step has a next state, or the host has done what the spec puts outside the
model: the callback of the wait re-entered execute, or between calls the host passed a construct or an execute a length
the spec does not allow (R8, R175; the refusals are D15, D17, log 14 and log 15). -/
def Obligations.OnlyHostMisuseStops : Prop :=
  ∀ s, Invariant s → (∃ t, step s = .next t) ∨
    (step s = .refused .callbackReenters ∧ ∃ id cb, s.mode = .waitHost id ∧ sysLookup s.sys id = some cb ∧
      (s.env.nextAnswer cb s.view).1 = .reenters) ∨
    (step s = .refused .hostArgumentTooLarge ∧ (s.mode = .idle ∨ ∃ r, s.mode = .done r) ∧
      ((∃ m c, 2 ^ 64 ≤ m ∧ s.env.nextCommand.1 = .construct m c) ∨
        ∃ b : List Byte, 2 ^ 64 ≤ b.length ∧ s.env.nextCommand.1 = .execute b))

/-- Under the fairness assumption of R104, which is the spec's own decision D12 (log 24), a call with a deadline that
does not wait for one callback for ever, and whose steps have next states, ends. -/
def Obligations.DeadlineEndsEveryCall : Prop :=
  ∀ (r : Nat → State), CallRun r → FairDeadline r → ∀ k, (r k).mode = .running → (r k).maxCpuTime ≠ 0 →
    (∀ n, k ≤ n → InCall (r n) → ∃ m, n ≤ m ∧ ∀ id, (r m).mode ≠ .waitHost id) →
    ∃ n, k ≤ n ∧ ∃ res, (r n).mode = .done res

/-- Where the next input comes from, the model's own account of the inputs of R42 (log 12): the oldest of those the state
fixes, and with none fixed the free draw at the counter, which then goes on by one. -/
def Obligations.InputsComeInOrder : Prop :=
  ∀ (e : Env) (cb : CallbackId) (v : View),
    (∀ b bs, e.stops = b :: bs → e.nextStop = (b, { e with stops := bs })) ∧
    (∀ a as, e.answers = a :: as → e.nextAnswer cb v = (a, { e with answers := as })) ∧
    (∀ c cs, e.commands = c :: cs → e.nextCommand = (c, { e with commands := cs })) ∧
    (e.stops = [] → e.nextStop = (Config.stopDraw e.draws, { e with draws := e.draws + 1 })) ∧
    (e.answers = [] → e.nextAnswer cb v = (Config.callback cb v e.draws, { e with draws := e.draws + 1 })) ∧
    (e.commands = [] → e.nextCommand = (Config.command e.draws, { e with draws := e.draws + 1 }))
end

