-- ==== Sys2Proof/Laws/Memory.lean ====
section
/-! SUPPORT. Guest memory: a byte reads back what was written, other bytes stay, and every memory operation keeps the
list's one form and its bound. -/

namespace Sys2Proof.Laws

open Sys2Proof.Machine

@[simp] theorem readByte_nil (a : Nat) : readByte [] a = 0 := rfl

@[simp] theorem memory_wf_nil : Memory.wf [] = true := rfl
@[simp] theorem memory_within_nil (len : Nat) : Memory.within [] len = true := rfl

/-- The one form of a memory, taken apart at its first entry. -/
theorem memory_wf_cons (k : Nat) (b : Byte) (m : List Host.Cell) :
    Memory.wf ((k, b) :: m) = true ↔ (∀ c ∈ m, k < c.1) ∧ b ≠ 0 ∧ Memory.wf m = true := by
  simp [Memory.wf, unlistedByte]
  tauto

/-- A byte below every listed address reads as unlisted. -/
theorem readByte_below (m : List Host.Cell) (a : Nat) (h : ∀ c ∈ m, a < c.1) : readByte m a = 0 := by
  induction m with
  | nil => rfl
  | cons c m ih =>
    have h1 := h c (by simp)
    simp only [readByte]
    rw [if_neg (by omega)]
    exact ih fun d hd => h d (by simp [hd])

/-- A write leaves every other byte. -/
theorem readByte_writeByte_other (m : List Host.Cell) {a x : Nat} (v : Byte) (h : x ≠ a) :
    readByte (writeByte m a v) x = readByte m x := by
  have h' : ¬ a = x := fun e => h e.symm
  induction m with
  | nil => simp only [writeByte]; split <;> simp [readByte, h']
  | cons c m ih =>
    obtain ⟨k, b⟩ := c
    simp only [writeByte]
    split
    · split <;> simp [readByte, h']
    · split
      · rename_i _ hk
        subst hk
        split <;> simp [readByte, h']
      · simp [readByte, ih]

/-- A byte reads back what was written. -/
theorem readByte_writeByte_same (m : List Host.Cell) (a : Nat) (v : Byte) (hm : Memory.wf m = true) :
    readByte (writeByte m a v) a = v := by
  induction m with
  | nil => simp only [writeByte]; split <;> simp_all [readByte, unlistedByte]
  | cons c m ih =>
    obtain ⟨k, b⟩ := c
    obtain ⟨hlt, hb, hw⟩ := (memory_wf_cons k b m).1 hm
    simp only [writeByte]
    split
    · rename_i hak
      split
      · rename_i hv
        rw [hv]
        refine readByte_below _ _ fun c hc => ?_
        rcases List.mem_cons.1 hc with rfl | hc
        · exact hak
        · exact lt_trans hak (hlt c hc)
      · simp [readByte]
    · split
      · rename_i hk
        subst hk
        split
        · rename_i hv
          rw [hv]
          exact readByte_below _ _ hlt
        · simp [readByte]
      · rename_i hk
        simp only [readByte]
        rw [if_neg (fun e => hk e.symm)]
        exact ih hw

/-- The entries of a written memory are old ones, or the written byte. -/
theorem mem_writeByte (m : List Host.Cell) (a : Nat) (v : Byte) (c : Host.Cell) (h : c ∈ writeByte m a v) :
    c ∈ m ∨ c = (a, v) := by
  induction m with
  | nil => simp only [writeByte] at h; split at h <;> simp_all
  | cons d m ih =>
    obtain ⟨k, b⟩ := d
    simp only [writeByte] at h
    split at h
    · split at h <;> simp_all
      tauto
    · split at h
      · split at h <;> simp_all
        tauto
      · simp only [List.mem_cons] at h ⊢
        rcases h with h | h
        · tauto
        · rcases ih h with h | h <;> tauto

/-- A write of a byte keeps the list's one form. -/
theorem memory_wf_writeByte (m : List Host.Cell) (a : Nat) (v : Byte) (hm : Memory.wf m = true) :
    Memory.wf (writeByte m a v) = true := by
  induction m with
  | nil =>
    simp only [writeByte]
    split
    · rfl
    · rename_i hv
      exact (memory_wf_cons _ _ _).2 ⟨by simp, hv, rfl⟩
  | cons c m ih =>
    obtain ⟨k, b⟩ := c
    obtain ⟨hlt, hb, hw⟩ := (memory_wf_cons k b m).1 hm
    simp only [writeByte]
    split
    · rename_i hak
      split
      · exact hm
      · rename_i hv
        refine (memory_wf_cons _ _ _).2 ⟨fun c hc => ?_, hv, hm⟩
        rcases List.mem_cons.1 hc with rfl | hc
        · exact hak
        · exact lt_trans hak (hlt c hc)
    · split
      · rename_i hk
        subst hk
        split
        · exact hw
        · rename_i hv
          exact (memory_wf_cons _ _ _).2 ⟨hlt, hv, hw⟩
      · rename_i hak hk
        refine (memory_wf_cons _ _ _).2 ⟨fun c hc => ?_, hb, ih hw⟩
        rcases mem_writeByte m a v c hc with hc | rfl
        · exact hlt c hc
        · simp only
          omega

/-- A write inside memory keeps every listed address inside memory. -/
theorem memory_within_writeByte (m : List Host.Cell) (a : Nat) (v : Byte) (len : Nat)
    (hm : Memory.within m len = true) (ha : a < len) : Memory.within (writeByte m a v) len = true := by
  simp only [Memory.within, List.all_eq_true, decide_eq_true_eq] at hm ⊢
  intro c hc
  rcases mem_writeByte m a v c hc with hc | rfl
  · exact hm c hc
  · exact ha

/-- A write of bytes keeps the list's one form. -/
theorem memory_wf_writeBytes (m : List Host.Cell) (a : Nat) (bs : List Byte) (hm : Memory.wf m = true) :
    Memory.wf (writeBytes m a bs) = true := by
  induction bs generalizing m a with
  | nil => exact hm
  | cons b bs ih => exact ih _ _ (memory_wf_writeByte m a b hm)

/-- A write of bytes inside memory keeps every listed address inside memory. -/
theorem memory_within_writeBytes (m : List Host.Cell) (a : Nat) (bs : List Byte) (len : Nat)
    (hm : Memory.within m len = true) (ha : a + bs.length ≤ len) :
    Memory.within (writeBytes m a bs) len = true := by
  induction bs generalizing m a with
  | nil => exact hm
  | cons b bs ih =>
    simp only [List.length_cons] at ha
    exact ih _ _ (memory_within_writeByte m a b len hm (by omega)) (by omega)

/-- A store keeps the list's one form. -/
theorem memory_wf_memWrite (m : List Host.Cell) (a n : Nat) (v : Word) (hm : Memory.wf m = true) :
    Memory.wf (memWrite m a n v) = true :=
  memory_wf_writeBytes m a _ hm

/-- A store inside memory keeps every listed address inside memory. -/
theorem memory_within_memWrite (m : List Host.Cell) (a n : Nat) (v : Word) (len : Nat)
    (hm : Memory.within m len = true) (ha : a + n ≤ len) : Memory.within (memWrite m a n v) len = true :=
  memory_within_writeBytes m a _ len hm (by simpa using ha)

/-- A write of bytes leaves every byte outside them. -/
theorem readByte_writeBytes_outside (m : List Host.Cell) (a : Nat) (bs : List Byte) (x : Nat)
    (h : x < a ∨ a + bs.length ≤ x) : readByte (writeBytes m a bs) x = readByte m x := by
  induction bs generalizing m a with
  | nil => rfl
  | cons b bs ih =>
    simp only [List.length_cons] at h
    simp only [writeBytes]
    rw [ih _ _ (by omega), readByte_writeByte_other m b (by omega)]

/-- A write of bytes is read back byte by byte. -/
theorem readByte_writeBytes_inside (m : List Host.Cell) (a : Nat) (bs : List Byte) (hm : Memory.wf m = true)
    (k : Nat) (h : k < bs.length) : readByte (writeBytes m a bs) (a + k) = bs[k] := by
  induction bs generalizing m a k with
  | nil => simp at h
  | cons b bs ih =>
    simp only [writeBytes]
    cases k with
    | zero =>
      rw [readByte_writeBytes_outside _ _ _ _ (by omega)]
      exact readByte_writeByte_same m a b hm
    | succ k =>
      have h' : k < bs.length := by simpa using h
      have := ih (writeByte m a b) (a + 1) (memory_wf_writeByte m a b hm) k h'
      rw [show a + (k + 1) = a + 1 + k by omega, this]
      rfl

@[simp] theorem readBytes_length (m : List Host.Cell) (a n : Nat) : (readBytes m a n).length = n := by
  induction n generalizing a with
  | zero => rfl
  | succ n ih => simp [readBytes, ih]

/-- A load of `n` bytes gives a value below `2^(8n)`. -/
theorem memRead_lt (m : List Host.Cell) (a n : Nat) : memRead m a n < 2 ^ (8 * n) := by
  simpa [memRead] using leNat_lt (readBytes m a n)

end Sys2Proof.Laws
end

