-- ==== Sys2Proof/Laws/State.lean ====
section
/-! SUPPORT. Beside the state: one lemma for each field under each named update, and the registers' own laws. -/

namespace Sys2Proof.Laws

open Sys2Proof.Machine

/-! ### State.setReg -/

@[simp] theorem state_setReg_regs (s : State) (r : Reg) (v : Word) : (s.setReg r v).regs = regSet s.regs r v := rfl
@[simp] theorem state_setReg_mem (s : State) (r : Reg) (v : Word) : (s.setReg r v).mem = s.mem := rfl
@[simp] theorem state_setReg_memLen (s : State) (r : Reg) (v : Word) : (s.setReg r v).memLen = s.memLen := rfl
@[simp] theorem state_setReg_sys (s : State) (r : Reg) (v : Word) : (s.setReg r v).sys = s.sys := rfl
@[simp] theorem state_setReg_bc (s : State) (r : Reg) (v : Word) : (s.setReg r v).bc = s.bc := rfl
@[simp] theorem state_setReg_pc (s : State) (r : Reg) (v : Word) : (s.setReg r v).pc = s.pc := rfl
@[simp] theorem state_setReg_stop (s : State) (r : Reg) (v : Word) : (s.setReg r v).stop = s.stop := rfl
@[simp] theorem state_setReg_maxCpuTime (s : State) (r : Reg) (v : Word) : (s.setReg r v).maxCpuTime = s.maxCpuTime := rfl
@[simp] theorem state_setReg_mode (s : State) (r : Reg) (v : Word) : (s.setReg r v).mode = s.mode := rfl
@[simp] theorem state_setReg_env (s : State) (r : Reg) (v : Word) : (s.setReg r v).env = s.env := rfl

/-! ### State.clearLatch -/

@[simp] theorem state_clearLatch_regs (s : State) : (s.clearLatch).regs = { s.regs with r4 := 0 } := rfl
@[simp] theorem state_clearLatch_mem (s : State) : (s.clearLatch).mem = s.mem := rfl
@[simp] theorem state_clearLatch_memLen (s : State) : (s.clearLatch).memLen = s.memLen := rfl
@[simp] theorem state_clearLatch_sys (s : State) : (s.clearLatch).sys = s.sys := rfl
@[simp] theorem state_clearLatch_bc (s : State) : (s.clearLatch).bc = s.bc := rfl
@[simp] theorem state_clearLatch_pc (s : State) : (s.clearLatch).pc = s.pc := rfl
@[simp] theorem state_clearLatch_stop (s : State) : (s.clearLatch).stop = s.stop := rfl
@[simp] theorem state_clearLatch_maxCpuTime (s : State) : (s.clearLatch).maxCpuTime = s.maxCpuTime := rfl
@[simp] theorem state_clearLatch_mode (s : State) : (s.clearLatch).mode = s.mode := rfl
@[simp] theorem state_clearLatch_env (s : State) : (s.clearLatch).env = s.env := rfl

/-! ### State.setLatch -/

@[simp] theorem state_setLatch_regs (s : State) : (s.setLatch).regs = { s.regs with r4 := 1 } := rfl
@[simp] theorem state_setLatch_mem (s : State) : (s.setLatch).mem = s.mem := rfl
@[simp] theorem state_setLatch_memLen (s : State) : (s.setLatch).memLen = s.memLen := rfl
@[simp] theorem state_setLatch_sys (s : State) : (s.setLatch).sys = s.sys := rfl
@[simp] theorem state_setLatch_bc (s : State) : (s.setLatch).bc = s.bc := rfl
@[simp] theorem state_setLatch_pc (s : State) : (s.setLatch).pc = s.pc := rfl
@[simp] theorem state_setLatch_stop (s : State) : (s.setLatch).stop = s.stop := rfl
@[simp] theorem state_setLatch_maxCpuTime (s : State) : (s.setLatch).maxCpuTime = s.maxCpuTime := rfl
@[simp] theorem state_setLatch_mode (s : State) : (s.setLatch).mode = s.mode := rfl
@[simp] theorem state_setLatch_env (s : State) : (s.setLatch).env = s.env := rfl

/-! ### State.advance -/

@[simp] theorem state_advance_regs (s : State) (w : Nat) : (s.advance w).regs = s.regs := rfl
@[simp] theorem state_advance_mem (s : State) (w : Nat) : (s.advance w).mem = s.mem := rfl
@[simp] theorem state_advance_memLen (s : State) (w : Nat) : (s.advance w).memLen = s.memLen := rfl
@[simp] theorem state_advance_sys (s : State) (w : Nat) : (s.advance w).sys = s.sys := rfl
@[simp] theorem state_advance_bc (s : State) (w : Nat) : (s.advance w).bc = s.bc := rfl
@[simp] theorem state_advance_pc (s : State) (w : Nat) : (s.advance w).pc = s.pc + BitVec.ofNat 64 (1 + w) := rfl
@[simp] theorem state_advance_stop (s : State) (w : Nat) : (s.advance w).stop = s.stop := rfl
@[simp] theorem state_advance_maxCpuTime (s : State) (w : Nat) : (s.advance w).maxCpuTime = s.maxCpuTime := rfl
@[simp] theorem state_advance_mode (s : State) (w : Nat) : (s.advance w).mode = s.mode := rfl
@[simp] theorem state_advance_env (s : State) (w : Nat) : (s.advance w).env = s.env := rfl

/-! ### State.jumpTo -/

@[simp] theorem state_jumpTo_regs (s : State) (t : Word) : (s.jumpTo t).regs = s.regs := rfl
@[simp] theorem state_jumpTo_mem (s : State) (t : Word) : (s.jumpTo t).mem = s.mem := rfl
@[simp] theorem state_jumpTo_memLen (s : State) (t : Word) : (s.jumpTo t).memLen = s.memLen := rfl
@[simp] theorem state_jumpTo_sys (s : State) (t : Word) : (s.jumpTo t).sys = s.sys := rfl
@[simp] theorem state_jumpTo_bc (s : State) (t : Word) : (s.jumpTo t).bc = s.bc := rfl
@[simp] theorem state_jumpTo_pc (s : State) (t : Word) : (s.jumpTo t).pc = t := rfl
@[simp] theorem state_jumpTo_stop (s : State) (t : Word) : (s.jumpTo t).stop = s.stop := rfl
@[simp] theorem state_jumpTo_maxCpuTime (s : State) (t : Word) : (s.jumpTo t).maxCpuTime = s.maxCpuTime := rfl
@[simp] theorem state_jumpTo_mode (s : State) (t : Word) : (s.jumpTo t).mode = s.mode := rfl
@[simp] theorem state_jumpTo_env (s : State) (t : Word) : (s.jumpTo t).env = s.env := rfl

/-! ### State.raise -/

@[simp] theorem state_raise_regs (s : State) (k : ErrorKind) : (s.raise k).regs = s.regs := rfl
@[simp] theorem state_raise_mem (s : State) (k : ErrorKind) : (s.raise k).mem = s.mem := rfl
@[simp] theorem state_raise_memLen (s : State) (k : ErrorKind) : (s.raise k).memLen = s.memLen := rfl
@[simp] theorem state_raise_sys (s : State) (k : ErrorKind) : (s.raise k).sys = s.sys := rfl
@[simp] theorem state_raise_bc (s : State) (k : ErrorKind) : (s.raise k).bc = s.bc := rfl
@[simp] theorem state_raise_pc (s : State) (k : ErrorKind) : (s.raise k).pc = s.pc := rfl
@[simp] theorem state_raise_stop (s : State) (k : ErrorKind) : (s.raise k).stop = s.stop := rfl
@[simp] theorem state_raise_maxCpuTime (s : State) (k : ErrorKind) : (s.raise k).maxCpuTime = s.maxCpuTime := rfl
@[simp] theorem state_raise_mode (s : State) (k : ErrorKind) : (s.raise k).mode = .done (.error k) := rfl
@[simp] theorem state_raise_env (s : State) (k : ErrorKind) : (s.raise k).env = s.env := rfl

/-! ### State.halt -/

@[simp] theorem state_halt_regs (s : State) : (s.halt).regs = s.regs := rfl
@[simp] theorem state_halt_mem (s : State) : (s.halt).mem = s.mem := rfl
@[simp] theorem state_halt_memLen (s : State) : (s.halt).memLen = s.memLen := rfl
@[simp] theorem state_halt_sys (s : State) : (s.halt).sys = s.sys := rfl
@[simp] theorem state_halt_bc (s : State) : (s.halt).bc = s.bc := rfl
@[simp] theorem state_halt_pc (s : State) : (s.halt).pc = s.pc := rfl
@[simp] theorem state_halt_stop (s : State) : (s.halt).stop = s.stop := rfl
@[simp] theorem state_halt_maxCpuTime (s : State) : (s.halt).maxCpuTime = s.maxCpuTime := rfl
@[simp] theorem state_halt_mode (s : State) : (s.halt).mode = .done .success := rfl
@[simp] theorem state_halt_env (s : State) : (s.halt).env = s.env := rfl

/-! ### State.beginCall -/

@[simp] theorem state_beginCall_regs (s : State) (b : List Byte) : (s.beginCall b).regs = s.regs := rfl
@[simp] theorem state_beginCall_mem (s : State) (b : List Byte) : (s.beginCall b).mem = s.mem := rfl
@[simp] theorem state_beginCall_memLen (s : State) (b : List Byte) : (s.beginCall b).memLen = s.memLen := rfl
@[simp] theorem state_beginCall_sys (s : State) (b : List Byte) : (s.beginCall b).sys = s.sys := rfl
@[simp] theorem state_beginCall_bc (s : State) (b : List Byte) : (s.beginCall b).bc = b := rfl
@[simp] theorem state_beginCall_pc (s : State) (b : List Byte) : (s.beginCall b).pc = 0 := rfl
@[simp] theorem state_beginCall_stop (s : State) (b : List Byte) : (s.beginCall b).stop = false := rfl
@[simp] theorem state_beginCall_maxCpuTime (s : State) (b : List Byte) : (s.beginCall b).maxCpuTime = s.maxCpuTime := rfl
@[simp] theorem state_beginCall_mode (s : State) (b : List Byte) : (s.beginCall b).mode = .running := rfl
@[simp] theorem state_beginCall_env (s : State) (b : List Byte) : (s.beginCall b).env = s.env := rfl

/-! ### State.clearRegisters -/

@[simp] theorem state_clearRegisters_regs (s : State) : (s.clearRegisters).regs = { r1 := 0, r2 := 0, r3 := 0, r4 := 0 } := rfl
@[simp] theorem state_clearRegisters_mem (s : State) : (s.clearRegisters).mem = s.mem := rfl
@[simp] theorem state_clearRegisters_memLen (s : State) : (s.clearRegisters).memLen = s.memLen := rfl
@[simp] theorem state_clearRegisters_sys (s : State) : (s.clearRegisters).sys = s.sys := rfl
@[simp] theorem state_clearRegisters_bc (s : State) : (s.clearRegisters).bc = s.bc := rfl
@[simp] theorem state_clearRegisters_pc (s : State) : (s.clearRegisters).pc = s.pc := rfl
@[simp] theorem state_clearRegisters_stop (s : State) : (s.clearRegisters).stop = s.stop := rfl
@[simp] theorem state_clearRegisters_maxCpuTime (s : State) : (s.clearRegisters).maxCpuTime = s.maxCpuTime := rfl
@[simp] theorem state_clearRegisters_mode (s : State) : (s.clearRegisters).mode = s.mode := rfl
@[simp] theorem state_clearRegisters_env (s : State) : (s.clearRegisters).env = s.env := rfl

/-! ### State.clearMemory -/

@[simp] theorem state_clearMemory_regs (s : State) : (s.clearMemory).regs = s.regs := rfl
@[simp] theorem state_clearMemory_mem (s : State) : (s.clearMemory).mem = [] := rfl
@[simp] theorem state_clearMemory_memLen (s : State) : (s.clearMemory).memLen = s.memLen := rfl
@[simp] theorem state_clearMemory_sys (s : State) : (s.clearMemory).sys = s.sys := rfl
@[simp] theorem state_clearMemory_bc (s : State) : (s.clearMemory).bc = s.bc := rfl
@[simp] theorem state_clearMemory_pc (s : State) : (s.clearMemory).pc = s.pc := rfl
@[simp] theorem state_clearMemory_stop (s : State) : (s.clearMemory).stop = s.stop := rfl
@[simp] theorem state_clearMemory_maxCpuTime (s : State) : (s.clearMemory).maxCpuTime = s.maxCpuTime := rfl
@[simp] theorem state_clearMemory_mode (s : State) : (s.clearMemory).mode = s.mode := rfl
@[simp] theorem state_clearMemory_env (s : State) : (s.clearMemory).env = s.env := rfl

/-! ### State.registerSyscall -/

@[simp] theorem state_registerSyscall_regs (s : State) (id : Word) (cb : CallbackId) : (s.registerSyscall id cb).regs = s.regs := rfl
@[simp] theorem state_registerSyscall_mem (s : State) (id : Word) (cb : CallbackId) : (s.registerSyscall id cb).mem = s.mem := rfl
@[simp] theorem state_registerSyscall_memLen (s : State) (id : Word) (cb : CallbackId) : (s.registerSyscall id cb).memLen = s.memLen := rfl
@[simp] theorem state_registerSyscall_sys (s : State) (id : Word) (cb : CallbackId) : (s.registerSyscall id cb).sys = sysInsert s.sys id cb := rfl
@[simp] theorem state_registerSyscall_bc (s : State) (id : Word) (cb : CallbackId) : (s.registerSyscall id cb).bc = s.bc := rfl
@[simp] theorem state_registerSyscall_pc (s : State) (id : Word) (cb : CallbackId) : (s.registerSyscall id cb).pc = s.pc := rfl
@[simp] theorem state_registerSyscall_stop (s : State) (id : Word) (cb : CallbackId) : (s.registerSyscall id cb).stop = s.stop := rfl
@[simp] theorem state_registerSyscall_maxCpuTime (s : State) (id : Word) (cb : CallbackId) : (s.registerSyscall id cb).maxCpuTime = s.maxCpuTime := rfl
@[simp] theorem state_registerSyscall_mode (s : State) (id : Word) (cb : CallbackId) : (s.registerSyscall id cb).mode = s.mode := rfl
@[simp] theorem state_registerSyscall_env (s : State) (id : Word) (cb : CallbackId) : (s.registerSyscall id cb).env = s.env := rfl

/-! ### State.unregisterSyscall -/

@[simp] theorem state_unregisterSyscall_regs (s : State) (id : Word) : (s.unregisterSyscall id).regs = s.regs := rfl
@[simp] theorem state_unregisterSyscall_mem (s : State) (id : Word) : (s.unregisterSyscall id).mem = s.mem := rfl
@[simp] theorem state_unregisterSyscall_memLen (s : State) (id : Word) : (s.unregisterSyscall id).memLen = s.memLen := rfl
@[simp] theorem state_unregisterSyscall_sys (s : State) (id : Word) : (s.unregisterSyscall id).sys = sysErase s.sys id := rfl
@[simp] theorem state_unregisterSyscall_bc (s : State) (id : Word) : (s.unregisterSyscall id).bc = s.bc := rfl
@[simp] theorem state_unregisterSyscall_pc (s : State) (id : Word) : (s.unregisterSyscall id).pc = s.pc := rfl
@[simp] theorem state_unregisterSyscall_stop (s : State) (id : Word) : (s.unregisterSyscall id).stop = s.stop := rfl
@[simp] theorem state_unregisterSyscall_maxCpuTime (s : State) (id : Word) : (s.unregisterSyscall id).maxCpuTime = s.maxCpuTime := rfl
@[simp] theorem state_unregisterSyscall_mode (s : State) (id : Word) : (s.unregisterSyscall id).mode = s.mode := rfl
@[simp] theorem state_unregisterSyscall_env (s : State) (id : Word) : (s.unregisterSyscall id).env = s.env := rfl

/-! ### Registers -/

@[simp] theorem reg_r1 (s : State) : s.reg .r1 = s.regs.r1 := rfl
@[simp] theorem reg_r2 (s : State) : s.reg .r2 = s.regs.r2 := rfl
@[simp] theorem reg_r3 (s : State) : s.reg .r3 = s.regs.r3 := rfl
@[simp] theorem reg_r4 (s : State) : s.reg .r4 = s.regs.r4 := rfl

@[simp] theorem regSet_r1 (rs : Regs) (v : Word) : regSet rs .r1 v = { rs with r1 := v } := rfl
@[simp] theorem regSet_r2 (rs : Regs) (v : Word) : regSet rs .r2 v = { rs with r2 := v } := rfl
@[simp] theorem regSet_r3 (rs : Regs) (v : Word) : regSet rs .r3 v = { rs with r3 := v } := rfl
@[simp] theorem regSet_r4 (rs : Regs) (v : Word) : regSet rs .r4 v = { rs with r4 := v } := rfl

/-- A register reads back what was written to it. -/
theorem regGet_regSet_same (rs : Regs) (r : Reg) (v : Word) : regGet (regSet rs r v) r = v := by
  cases r <;> rfl

/-- Writing a register leaves every other register. -/
theorem regGet_regSet_other (rs : Regs) {r q : Reg} (v : Word) (h : q ≠ r) :
    regGet (regSet rs r v) q = regGet rs q := by
  cases r <;> cases q <;> first | rfl | exact absurd rfl h

end Sys2Proof.Laws
end

