-- ==== Sys2Proof/Laws/Host.lean ====
section
/-! SUPPORT. The syscall table and the host's writes: what a write leaves alone, and that every write keeps the forms of
memory and of the table. -/

namespace Sys2Proof.Laws

open Sys2Proof.Machine

/-! ### The syscall table -/

/-- The one form of a table, taken apart at its first entry. -/
theorem sysSorted_cons (k : Word) (c : CallbackId) (t : SyscallTable) :
    sysSorted ((k, c) :: t) = true ↔ (∀ e ∈ t, k < e.1) ∧ sysSorted t = true := by
  simp [sysSorted]

/-- The entries after a registration are old ones, or the new one. -/
theorem mem_sysInsert (t : SyscallTable) (id : Word) (cb : CallbackId) (e : Word × CallbackId)
    (h : e ∈ sysInsert t id cb) : e ∈ t ∨ e = (id, cb) := by
  induction t with
  | nil => simpa [sysInsert] using h
  | cons d t ih =>
    obtain ⟨k, c⟩ := d
    simp only [sysInsert] at h
    split at h
    · simp only [List.mem_cons] at h ⊢; tauto
    · split at h
      · simp only [List.mem_cons] at h ⊢; tauto
      · simp only [List.mem_cons] at h ⊢
        rcases h with h | h
        · tauto
        · rcases ih h with h | h <;> tauto

/-- Registration keeps the table's one form. -/
theorem sysSorted_sysInsert (t : SyscallTable) (id : Word) (cb : CallbackId) (h : sysSorted t = true) :
    sysSorted (sysInsert t id cb) = true := by
  induction t with
  | nil => rfl
  | cons d t ih =>
    obtain ⟨k, c⟩ := d
    obtain ⟨hlt, hs⟩ := (sysSorted_cons k c t).1 h
    simp only [sysInsert]
    split
    · rename_i hik
      refine (sysSorted_cons _ _ _).2 ⟨fun e he => ?_, h⟩
      rcases List.mem_cons.1 he with rfl | he
      · exact hik
      · exact BitVec.lt_trans hik (hlt e he)
    · split
      · rename_i hk
        subst hk
        exact (sysSorted_cons _ _ _).2 ⟨hlt, hs⟩
      · rename_i hik hk
        refine (sysSorted_cons _ _ _).2 ⟨fun e he => ?_, ih hs⟩
        rcases mem_sysInsert t id cb e he with he | rfl
        · exact hlt e he
        · show k < id
          simp only [BitVec.lt_def, ← BitVec.toNat_inj] at hik hk ⊢
          omega

/-- The entries after an unregistration are old ones. -/
theorem mem_sysErase (t : SyscallTable) (id : Word) (e : Word × CallbackId) (h : e ∈ sysErase t id) : e ∈ t := by
  induction t with
  | nil => simp [sysErase] at h
  | cons d t ih =>
    obtain ⟨k, c⟩ := d
    simp only [sysErase] at h
    split at h
    · simp [h]
    · rcases List.mem_cons.1 h with rfl | h
      · simp
      · simp [ih h]

/-- Unregistration keeps the table's one form. -/
theorem sysSorted_sysErase (t : SyscallTable) (id : Word) (h : sysSorted t = true) :
    sysSorted (sysErase t id) = true := by
  induction t with
  | nil => rfl
  | cons d t ih =>
    obtain ⟨k, c⟩ := d
    obtain ⟨hlt, hs⟩ := (sysSorted_cons k c t).1 h
    simp only [sysErase]
    split
    · exact hs
    · exact (sysSorted_cons _ _ _).2 ⟨fun e he => hlt e (mem_sysErase t id e he), ih hs⟩

/-- The id just registered is found, with its callback. -/
theorem sysLookup_sysInsert_same (t : SyscallTable) (id : Word) (cb : CallbackId) :
    sysLookup (sysInsert t id cb) id = some cb := by
  induction t with
  | nil => simp [sysInsert, sysLookup]
  | cons d t ih =>
    obtain ⟨k, c⟩ := d
    simp only [sysInsert]
    split
    · simp [sysLookup]
    · split
      · simp [sysLookup]
      · rename_i hk
        have hk' : ¬ k = id := fun e => hk e.symm
        simp [sysLookup, ih, hk']

/-- Registration leaves every other id. -/
theorem sysLookup_sysInsert_other (t : SyscallTable) {id x : Word} (cb : CallbackId) (h : x ≠ id) :
    sysLookup (sysInsert t id cb) x = sysLookup t x := by
  have h' : ¬ id = x := fun e => h e.symm
  induction t with
  | nil => simp [sysInsert, sysLookup, h']
  | cons d t ih =>
    obtain ⟨k, c⟩ := d
    simp only [sysInsert]
    split
    · simp [sysLookup, h']
    · split
      · rename_i hk
        subst hk
        simp [sysLookup, h']
      · simp [sysLookup, ih]

/-! ### What a write of the host leaves alone -/

/-- A host byte write is a write of one byte inside memory, or nothing. -/
theorem hostWriteByte_cases (s : State) (a : Nat) (b : Byte) :
    (a < s.memLen ∧ s.hostWriteByte a b = { s with mem := writeByte s.mem a b }) ∨ s.hostWriteByte a b = s := by
  unfold State.hostWriteByte
  split
  · exact .inl ⟨‹_›, rfl⟩
  · exact .inr rfl

/-- A write of the host changes registers, memory and the table only (R173). -/
theorem applyWrite_eq (s : State) (w : HostWrite) :
    s.applyWrite w =
      { s with regs := (s.applyWrite w).regs, mem := (s.applyWrite w).mem, sys := (s.applyWrite w).sys } := by
  cases w with
  | writeByte a b =>
    simp only [State.applyWrite]
    rcases hostWriteByte_cases s a b with ⟨_, h⟩ | h <;> rw [h]
  | _ => rfl

/-- The writes of the host change registers, memory and the table only (R173). -/
theorem applyWrites_eq (s : State) (ws : List HostWrite) :
    s.applyWrites ws =
      { s with regs := (s.applyWrites ws).regs, mem := (s.applyWrites ws).mem, sys := (s.applyWrites ws).sys } := by
  induction ws generalizing s with
  | nil => rfl
  | cons w ws ih =>
    have h := applyWrite_eq s w
    simp only [State.applyWrites]
    rw [ih (s.applyWrite w)]
    generalize s.applyWrite w = t at h ⊢
    rw [h]

/-- The writes of the host do not depend on the inputs to come. -/
theorem applyWrites_env (s : State) (e : Env) (ws : List HostWrite) :
    State.applyWrites { s with env := e } ws = { s.applyWrites ws with env := e } := by
  induction ws generalizing s with
  | nil => rfl
  | cons w ws ih =>
    have h : State.applyWrite { s with env := e } w = { s.applyWrite w with env := e } := by
      cases w with
      | writeByte a b => simp only [State.applyWrite, State.hostWriteByte]; split <;> rfl
      | _ => rfl
    simp only [State.applyWrites, h, ih]

/-- Every write of the host keeps the forms of memory and of the table. -/
theorem applyWrite_forms (s : State) (w : HostWrite) (hm : Memory.wf s.mem = true)
    (hi : Memory.within s.mem s.memLen = true) (hs : sysSorted s.sys = true) :
    Memory.wf (s.applyWrite w).mem = true ∧ Memory.within (s.applyWrite w).mem s.memLen = true ∧
      sysSorted (s.applyWrite w).sys = true := by
  cases w with
  | setReg r v => exact ⟨hm, hi, hs⟩
  | writeByte a b =>
    simp only [State.applyWrite]
    rcases hostWriteByte_cases s a b with ⟨ha, h⟩ | h <;> rw [h]
    · exact ⟨memory_wf_writeByte _ _ _ hm, memory_within_writeByte _ _ _ _ hi ha, hs⟩
    · exact ⟨hm, hi, hs⟩
  | registerSyscall id cb => exact ⟨hm, hi, sysSorted_sysInsert _ _ _ hs⟩
  | unregisterSyscall id => exact ⟨hm, hi, sysSorted_sysErase _ _ hs⟩
  | clearRegisters => exact ⟨hm, hi, hs⟩
  | clearMemory => exact ⟨rfl, rfl, hs⟩

/-- The forms after every write of a list, where each write finds the forms and the length of memory kept. -/
theorem applyWrites_forms (s : State) (ws : List HostWrite) (hm : Memory.wf s.mem = true)
    (hi : Memory.within s.mem s.memLen = true) (hs : sysSorted s.sys = true) :
    Memory.wf (s.applyWrites ws).mem = true ∧ Memory.within (s.applyWrites ws).mem s.memLen = true ∧
      sysSorted (s.applyWrites ws).sys = true := by
  induction ws generalizing s with
  | nil => exact ⟨hm, hi, hs⟩
  | cons w ws ih =>
    obtain ⟨h1, h2, h3⟩ := applyWrite_forms s w hm hi hs
    have hlen : (s.applyWrite w).memLen = s.memLen := by rw [applyWrite_eq]
    have := ih (s.applyWrite w) h1 (by rw [hlen]; exact h2) h3
    rw [hlen] at this
    exact this

end Sys2Proof.Laws
end

