-- ==== Sys2Proof/Laws/Ops.lean ====
section
/-! SUPPORT. What each shared operation can do, said once: the operand forms, a whole instruction, and a step in each
status of the dispatcher. -/

namespace Sys2Proof.Laws

open Sys2Proof.Machine Sys2Proof.Safety

/-- A load is done inside memory and ends the call outside it. -/
theorem loadR1_cases (s : State) (n : Nat) (a : Word) :
    (s.inBounds a n = true ∧ s.loadR1 n a = s.result .r1 (BitVec.ofNat 64 (memRead s.mem a.toNat n)) 8) ∨
      (s.inBounds a n = false ∧ s.loadR1 n a = .next (s.raise .invalidMemoryLocation)) := by
  unfold State.loadR1
  cases h : s.inBounds a n <;> simp

/-- A store is done inside memory and ends the call outside it. -/
theorem dumpR1_cases (s : State) (n : Nat) (a : Word) :
    (s.inBounds a n = true ∧
        s.dumpR1 n a =
          .next ((State.clearLatch { s with mem := memWrite s.mem a.toNat n s.regs.r1 }).advance 8)) ∨
      (s.inBounds a n = false ∧ s.dumpR1 n a = .next (s.raise .invalidMemoryLocation)) := by
  unfold State.dumpR1
  cases h : s.inBounds a n <;> simp

/-- A div or mod sets the latch and keeps R1 when R2 is 0, and gives its result otherwise. -/
theorem divide_cases (s : State) (f : Word → Word → Word) :
    (s.regs.r2 = 0 ∧ s.divide f = .next (s.setLatch.advance 0)) ∨
      (s.regs.r2 ≠ 0 ∧ s.divide f = s.result .r1 (f s.regs.r1 s.regs.r2) 0) := by
  by_cases h : s.regs.r2 = 0
  · exact .inl ⟨h, if_pos h⟩
  · exact .inr ⟨h, if_neg h⟩

/-- A conditional jump goes to a target inside the bytecode, falls through, or ends the call. -/
theorem branch_cases (s : State) (taken : Bool) (t : Word) :
    (taken = true ∧ t.toNat < s.bc.length ∧ s.branch taken t = .next (s.jumpTo t)) ∨
      (taken = false ∧ s.branch taken t = .next (s.advance 8)) ∨
      (s.bc.length ≤ t.toNat ∧ s.branch taken t = .next (s.raise .invalidMemoryLocation)) := by
  unfold State.branch State.legalTarget
  cases taken <;> by_cases h : t.toNat < s.bc.length <;> simp [h]
  · cases Config.untakenTargetCheck <;> simp; omega
  · omega

/-- The shapes an instruction's next state can have, and which instructions have them. -/
inductive ExecShape (i : Instr) (s : State) : State → Prop where
  /-- a register other than R4 is written, R4 is cleared -/
  | result (r : Reg) (v : Word) (h4 : r ≠ .r4) (hs : isStore i = false) (hj : isJump i = false)
      (hd : isDivision i = true → s.regs.r2 ≠ 0)
      (h2 : r = .r2 → i ∈ [Instr.moveR1R2, .moveR3R2, .moveR4R2])
      (h3 : r = .r3 → i ∈ [Instr.moveR1R3, .moveR2R3, .moveR4R3]) :
      ExecShape i s ((s.setReg r v).clearLatch.advance i.operandWidth)
  /-- bytes inside memory are written, R4 is cleared -/
  | store (n : Nat) (a : Word) (h : a.toNat + n ≤ s.memLen) (hs : isStore i = true) :
      ExecShape i s
        ((State.clearLatch { s with mem := memWrite s.mem a.toNat n s.regs.r1 }).advance i.operandWidth)
  /-- a division by zero -/
  | latch (hd : isDivision i = true) (h : s.regs.r2 = 0) : ExecShape i s (s.setLatch.advance i.operandWidth)
  /-- a jump that is not taken -/
  | fallThrough (hj : isJump i = true) : ExecShape i s (s.advance i.operandWidth)
  /-- a jump that is taken -/
  | jump (t : Word) (hj : isJump i = true) (ht : i.operandValue = some t.toNat) (h : t.toNat < s.bc.length) :
      ExecShape i s (s.jumpTo t)
  /-- a memory access or a jump target out of range -/
  | badLocation (h : isLoad i = true ∨ isStore i = true ∨ isJump i = true) :
      ExecShape i s (s.raise .invalidMemoryLocation)
  /-- a Syscall of an id that is not registered -/
  | badSyscall (id : Word) (hi : i = .syscall id) (h : sysLookup s.sys id = none) :
      ExecShape i s (s.raise .invalidSyscall)
  /-- a Syscall of a registered id -/
  | wait (id : Word) (hi : i = .syscall id) (h : (sysLookup s.sys id).isSome = true) :
      ExecShape i s { s.clearLatch with mode := .waitHost id }

/-- An operation answers a next state of one of those shapes. -/
abbrev HasShape (i : Instr) (s : State) (o : Host.Outcome State Fault Refusal) : Prop :=
  ∃ t, o = .next t ∧ ExecShape i s t

theorem result_shape (i : Instr) (s : State) (r : Reg) (v : Word) (w : Nat) (hw : i.operandWidth = w)
    (h4 : r ≠ .r4) (hs : isStore i = false) (hj : isJump i = false)
    (hd : isDivision i = false)
    (h2 : r = .r2 → i ∈ [Instr.moveR1R2, .moveR3R2, .moveR4R2])
    (h3 : r = .r3 → i ∈ [Instr.moveR1R3, .moveR2R3, .moveR4R3]) : HasShape i s (s.result r v w) :=
  ⟨_, rfl, hw ▸ .result r v h4 hs hj (by simp [hd]) h2 h3⟩

theorem loadR1_shape (i : Instr) (s : State) (n : Nat) (a : Word) (hw : i.operandWidth = 8)
    (hl : isLoad i = true) (hs : isStore i = false) (hj : isJump i = false) (hd : isDivision i = false) :
    HasShape i s (s.loadR1 n a) := by
  rcases loadR1_cases s n a with ⟨_, h⟩ | ⟨_, h⟩
  · rw [h]
    exact result_shape i s .r1 _ 8 hw (by decide) hs hj hd (by simp) (by simp)
  · exact ⟨_, h, .badLocation (.inl hl)⟩

theorem dumpR1_shape (i : Instr) (s : State) (n : Nat) (a : Word) (hw : i.operandWidth = 8)
    (hs : isStore i = true) : HasShape i s (s.dumpR1 n a) := by
  rcases dumpR1_cases s n a with ⟨hb, h⟩ | ⟨_, h⟩
  · exact ⟨_, h, hw ▸ .store n a (by simpa [State.inBounds] using hb) hs⟩
  · exact ⟨_, h, .badLocation (.inr (.inl hs))⟩

theorem divide_shape (i : Instr) (s : State) (f : Word → Word → Word) (hw : i.operandWidth = 0)
    (hd : isDivision i = true) (hs : isStore i = false) (hj : isJump i = false) : HasShape i s (s.divide f) := by
  rcases divide_cases s f with ⟨h0, h⟩ | ⟨h0, h⟩
  · exact ⟨_, h, hw ▸ .latch hd h0⟩
  · exact ⟨_, h, hw ▸ .result .r1 _ (by decide) hs hj (fun _ => h0) (by simp) (by simp)⟩

theorem branch_shape (i : Instr) (s : State) (taken : Bool) (t : Word) (hw : i.operandWidth = 8)
    (hj : isJump i = true) (ht : i.operandValue = some t.toNat) : HasShape i s (s.branch taken t) := by
  rcases branch_cases s taken t with ⟨_, hl, h⟩ | ⟨_, h⟩ | ⟨_, h⟩
  · exact ⟨_, h, .jump t hj ht hl⟩
  · exact ⟨_, h, hw ▸ .fallThrough hj⟩
  · exact ⟨_, h, .badLocation (.inr (.inr hj))⟩

theorem execJmp_shape (s : State) (t : Word) : HasShape (.jmp t) s (execJmp t s) := by
  unfold execJmp
  split
  · rename_i h
    exact ⟨_, rfl, .jump t rfl rfl (by simpa [State.legalTarget] using h)⟩
  · exact ⟨_, rfl, .badLocation (.inr (.inr rfl))⟩

theorem execSyscall_shape (s : State) (id : Word) : HasShape (.syscall id) s (execSyscall id s) := by
  unfold execSyscall
  split
  · rename_i h
    exact ⟨_, rfl, .badSyscall id rfl h⟩
  · rename_i h
    exact ⟨_, rfl, .wait id rfl (by simp [h])⟩

/-- Every instruction answers a next state, of one of the shapes. -/
theorem exec_shape (i : Instr) (s : State) : HasShape i s (exec i s) := by
  cases i with
  | memLoadU8 a | memLoadU16 a | memLoadU32 a | memLoadU64 a => exact loadR1_shape _ s _ a rfl rfl rfl rfl rfl
  | dumpU8 a | dumpU16 a | dumpU32 a | dumpU64 a => exact dumpR1_shape _ s _ a rfl rfl
  | unsignedDiv | signedDiv | unsignedMod | signedMod => exact divide_shape _ s _ rfl rfl rfl rfl
  | jmp t => exact execJmp_shape s t
  | jmpIfEq t | jmpIfNe t | jmpIfGt t | jmpIfLt t | jmpIfGtOrEq t | jmpIfLtOrEq t =>
    exact branch_shape _ s _ t rfl rfl rfl
  | syscall id => exact execSyscall_shape s id
  | moveR1R2 | moveR3R2 | moveR4R2 => exact result_shape _ s .r2 _ _ rfl (by decide) rfl rfl rfl (by simp) (by simp)
  | moveR1R3 | moveR2R3 | moveR4R3 => exact result_shape _ s .r3 _ _ rfl (by decide) rfl rfl rfl (by simp) (by simp)
  | _ => exact result_shape _ s .r1 _ _ rfl (by decide) rfl rfl rfl (by simp) (by simp)

/-! ### The inputs -/

/-- Sampling the stop flag changes the flag and the inputs to come, and the flag only from 0 to 1. -/
theorem sampleStop_eq (s : State) :
    s.sampleStop = { s with stop := s.sampleStop.stop, env := s.sampleStop.env } := by
  unfold State.sampleStop
  split <;> rfl

@[simp] theorem sampleStop_noWatcher (s : State) (h : s.maxCpuTime = 0) : s.sampleStop = s := by
  simp [State.sampleStop, h]

/-- The stop flag stays 1 once it is 1. -/
theorem sampleStop_monotone (s : State) (h : s.stop = true) : s.sampleStop.stop = true := by
  unfold State.sampleStop
  split <;> simp [h]

/-! ### A step in each status -/

theorem step_running (s : State) (h : s.mode = .running) : step s = s.runCall := by simp [step, h]
theorem step_waitHost (s : State) (id : Word) (h : s.mode = .waitHost id) : step s = s.waitStep id := by
  simp [step, h]
theorem step_idle (s : State) (h : s.mode = .idle) : step s = s.hostStep := by simp [step, h]
theorem step_done (s : State) (r : Result) (h : s.mode = .done r) : step s = s.hostStep := by simp [step, h]

/-- A step of a call in progress: one of halt, no meaning, deadline, bytes that do not decode, an instruction. -/
theorem runCall_cases (s : State) :
    (s.pc.toNat = s.bc.length ∧ s.runCall = .next s.halt) ∨
    (s.bc.length < s.pc.toNat ∧ s.runCall = .refused .pcBeyondBytecode) ∨
    (s.pc.toNat < s.bc.length ∧ s.maxCpuTime ≠ 0 ∧ s.sampleStop.stop = true ∧
      s.runCall = .next (s.sampleStop.raise .cpuTimeExhausted)) ∨
    (s.pc.toNat < s.bc.length ∧ (s.maxCpuTime = 0 ∨ s.sampleStop.stop = false) ∧
      ((∃ e, decode s.fetchBytes = .error e ∧ s.runCall = .next (s.sampleStop.raise (decodeErrorKind e))) ∨
        ∃ i rest, decode s.fetchBytes = .ok (i, rest) ∧ s.runCall = exec i s.sampleStop)) := by
  have hf : s.sampleStop.fetchBytes = s.fetchBytes := by rw [sampleStop_eq]; rfl
  unfold State.runCall
  by_cases h1 : s.pc.toNat = s.bc.length
  · simp [h1]
  · by_cases h2 : s.bc.length < s.pc.toNat
    · simp [h1, h2]
    · by_cases h3 : s.maxCpuTime ≠ 0 ∧ s.sampleStop.stop = true
      · simp only [h1, h2, if_false, false_and, false_or]
        exact .inl ⟨by omega, h3.1, h3.2, if_pos h3⟩
      · simp only [h1, h2, h3, if_false, false_and, false_or]
        refine .inr ⟨by omega, ?_, ?_⟩
        · by_cases h4 : s.maxCpuTime = 0
          · exact .inl h4
          · exact .inr (by simpa [h4] using h3)
        · unfold State.runInstruction
          rw [hf]
          cases hd : decode s.fetchBytes with
          | error e => exact .inl ⟨e, rfl, rfl⟩
          | ok p => exact .inr ⟨p.1, p.2, rfl, rfl⟩

/-- The end of a syscall wait, or the wait going on, with the answer that makes it so. -/
theorem respond_cases (s : State) (a : HostAnswer) :
    (a = .stillRunning ∧ s.respond a = .next s) ∨
    (∃ ws, a = .ok ws ∧ s.respond a = .next { (s.applyWrites ws).advance 8 with mode := .running }) ∨
    (∃ e ws, a = .err e ws ∧ s.respond a = .next ((s.applyWrites ws).raise (.callbackError e))) ∨
    (a = .reenters ∧ s.respond a = .refused .callbackReenters) := by
  cases a with
  | stillRunning => exact .inl ⟨rfl, rfl⟩
  | ok ws => exact .inr (.inl ⟨ws, rfl, rfl⟩)
  | err e ws => exact .inr (.inr (.inl ⟨e, ws, rfl, rfl⟩))
  | reenters => exact .inr (.inr (.inr ⟨rfl, rfl⟩))

/-- A step of a wait for a registered id is what the callback's answer makes of it. -/
theorem waitStep_registered (s : State) (id : Word) (cb : CallbackId) (h : sysLookup s.sys id = some cb) :
    s.waitStep id =
      State.respond { s with env := (s.env.nextAnswer cb s.view).2 } (s.env.nextAnswer cb s.view).1 := by
  simp [State.waitStep, h]

/-- What the host does between calls, with the command that makes it so. -/
theorem perform_cases (s : State) (c : HostCommand) :
    (c = .nothing ∧ s.perform c = .next s) ∨
    (∃ w, c = .write w ∧ s.perform c = .next (s.applyWrite w)) ∨
    (∃ m t, m < 2 ^ 64 ∧ c = .construct m t ∧ s.perform c = .next { State.construct m t with env := s.env }) ∨
    (∃ b : List Byte, b.length < 2 ^ 64 ∧ c = .execute b ∧ s.perform c = .next (s.beginCall b)) ∨
    (((∃ m t, 2 ^ 64 ≤ m ∧ c = .construct m t) ∨ ∃ b : List Byte, 2 ^ 64 ≤ b.length ∧ c = .execute b) ∧
      s.perform c = .refused .hostArgumentTooLarge) := by
  cases c with
  | nothing => exact .inl ⟨rfl, rfl⟩
  | write w => exact .inr (.inl ⟨w, rfl, rfl⟩)
  | construct m t =>
    unfold State.perform
    rcases Nat.lt_or_ge m (2 ^ 64) with h | h
    · exact .inr (.inr (.inl ⟨m, t, h, rfl, if_pos h⟩))
    · exact .inr (.inr (.inr (.inr ⟨.inl ⟨m, t, h, rfl⟩, if_neg (Nat.not_lt.2 h)⟩)))
  | execute b =>
    unfold State.perform
    rcases Nat.lt_or_ge b.length (2 ^ 64) with h | h
    · exact .inr (.inr (.inr (.inl ⟨b, h, rfl, if_pos h⟩)))
    · exact .inr (.inr (.inr (.inr ⟨.inr ⟨b, h, rfl⟩, if_neg (Nat.not_lt.2 h)⟩)))

/-- A state that `withFetchWord` leaves runs the instruction its number decodes to at the very next step. -/
theorem step_withFetchWord (s : State) (nbits w : Nat) (i : Instr) (h : decodeTableWord nbits w = some i) :
    step (s.withFetchWord nbits w) = exec i (s.withFetchWord nbits w) := by
  have hlen : (tableWordBytes nbits w).length = 9 := by simp [tableWordBytes, maxInstrBytes]
  rw [step_running _ rfl]
  have hpc : (s.withFetchWord nbits w).pc.toNat = 0 := rfl
  have hbc : (s.withFetchWord nbits w).bc = tableWordBytes nbits w := rfl
  rcases runCall_cases (s.withFetchWord nbits w) with ⟨h1, _⟩ | ⟨h1, _⟩ | ⟨_, h1, _⟩ | ⟨_, _, h1⟩
  · rw [hpc, hbc, hlen] at h1; omega
  · rw [hpc, hbc, hlen] at h1; omega
  · exact absurd rfl h1
  · have hf : (s.withFetchWord nbits w).fetchBytes = tableWordBytes nbits w := by
      simp [State.fetchBytes, hpc, hbc]
    rw [hf] at h1
    unfold decodeTableWord at h
    rcases h1 with ⟨e, he, _⟩ | ⟨j, rest, hj, hr⟩
    · simp [he] at h
    · simp only [hj, Option.some.injEq] at h
      rw [hr, h, sampleStop_noWatcher _ rfl]

end Sys2Proof.Laws
end

