-- ==== Sys2Proof/Laws/PerInstr.lean ====
section
/-! SUPPORT. A law of every instruction as syntax: it is well formed, its encoding is one opcode byte and its operand
width in bytes, and the opcode map gives its opcode that width (30_encoding.md R70, R72, R76, R77). -/

namespace Sys2Proof.Laws

/-- The law: well formed, encoded in `1 + w` bytes, and `w` is the width of its opcode's row. -/
def EncodingShape.Statement (i : Instr) : Prop :=
  i.wellFormed = true ∧ (encode i).length = 1 + i.operandWidth ∧
    (findOpcode i.opcode).map (·.width) = some i.operandWidth

theorem EncodingShape.of_fits (i : Instr) (hw : i.wellFormed = true)
    (hf : (findOpcode i.opcode).map (·.width) = some i.operandWidth) : EncodingShape.Statement i :=
  ⟨hw, by simp [encode, Nat.add_comm], hf⟩

theorem EncodingShape.loadU8 (imm : BitVec 8) : EncodingShape.Statement (.loadU8 imm) :=
  EncodingShape.of_fits _ (decide_eq_true imm.isLt) rfl
theorem EncodingShape.loadU16 (imm : BitVec 16) : EncodingShape.Statement (.loadU16 imm) :=
  EncodingShape.of_fits _ (decide_eq_true imm.isLt) rfl
theorem EncodingShape.loadU32 (imm : BitVec 32) : EncodingShape.Statement (.loadU32 imm) :=
  EncodingShape.of_fits _ (decide_eq_true imm.isLt) rfl
theorem EncodingShape.loadU64 (imm : BitVec 64) : EncodingShape.Statement (.loadU64 imm) :=
  EncodingShape.of_fits _ (decide_eq_true imm.isLt) rfl
theorem EncodingShape.memLoadU8 (addr : Word) : EncodingShape.Statement (.memLoadU8 addr) :=
  EncodingShape.of_fits _ (decide_eq_true addr.isLt) rfl
theorem EncodingShape.memLoadU16 (addr : Word) : EncodingShape.Statement (.memLoadU16 addr) :=
  EncodingShape.of_fits _ (decide_eq_true addr.isLt) rfl
theorem EncodingShape.memLoadU32 (addr : Word) : EncodingShape.Statement (.memLoadU32 addr) :=
  EncodingShape.of_fits _ (decide_eq_true addr.isLt) rfl
theorem EncodingShape.memLoadU64 (addr : Word) : EncodingShape.Statement (.memLoadU64 addr) :=
  EncodingShape.of_fits _ (decide_eq_true addr.isLt) rfl
theorem EncodingShape.moveR1R2 : EncodingShape.Statement .moveR1R2 :=
  EncodingShape.of_fits _ rfl rfl
theorem EncodingShape.moveR1R3 : EncodingShape.Statement .moveR1R3 :=
  EncodingShape.of_fits _ rfl rfl
theorem EncodingShape.moveR2R1 : EncodingShape.Statement .moveR2R1 :=
  EncodingShape.of_fits _ rfl rfl
theorem EncodingShape.moveR2R3 : EncodingShape.Statement .moveR2R3 :=
  EncodingShape.of_fits _ rfl rfl
theorem EncodingShape.moveR3R1 : EncodingShape.Statement .moveR3R1 :=
  EncodingShape.of_fits _ rfl rfl
theorem EncodingShape.moveR3R2 : EncodingShape.Statement .moveR3R2 :=
  EncodingShape.of_fits _ rfl rfl
theorem EncodingShape.moveR4R1 : EncodingShape.Statement .moveR4R1 :=
  EncodingShape.of_fits _ rfl rfl
theorem EncodingShape.moveR4R2 : EncodingShape.Statement .moveR4R2 :=
  EncodingShape.of_fits _ rfl rfl
theorem EncodingShape.moveR4R3 : EncodingShape.Statement .moveR4R3 :=
  EncodingShape.of_fits _ rfl rfl
theorem EncodingShape.dumpU8 (addr : Word) : EncodingShape.Statement (.dumpU8 addr) :=
  EncodingShape.of_fits _ (decide_eq_true addr.isLt) rfl
theorem EncodingShape.dumpU16 (addr : Word) : EncodingShape.Statement (.dumpU16 addr) :=
  EncodingShape.of_fits _ (decide_eq_true addr.isLt) rfl
theorem EncodingShape.dumpU32 (addr : Word) : EncodingShape.Statement (.dumpU32 addr) :=
  EncodingShape.of_fits _ (decide_eq_true addr.isLt) rfl
theorem EncodingShape.dumpU64 (addr : Word) : EncodingShape.Statement (.dumpU64 addr) :=
  EncodingShape.of_fits _ (decide_eq_true addr.isLt) rfl
theorem EncodingShape.unsignedAdd : EncodingShape.Statement .unsignedAdd :=
  EncodingShape.of_fits _ rfl rfl
theorem EncodingShape.signedAdd : EncodingShape.Statement .signedAdd :=
  EncodingShape.of_fits _ rfl rfl
theorem EncodingShape.unsignedSub : EncodingShape.Statement .unsignedSub :=
  EncodingShape.of_fits _ rfl rfl
theorem EncodingShape.signedSub : EncodingShape.Statement .signedSub :=
  EncodingShape.of_fits _ rfl rfl
theorem EncodingShape.unsignedDiv : EncodingShape.Statement .unsignedDiv :=
  EncodingShape.of_fits _ rfl rfl
theorem EncodingShape.signedDiv : EncodingShape.Statement .signedDiv :=
  EncodingShape.of_fits _ rfl rfl
theorem EncodingShape.unsignedMod : EncodingShape.Statement .unsignedMod :=
  EncodingShape.of_fits _ rfl rfl
theorem EncodingShape.signedMod : EncodingShape.Statement .signedMod :=
  EncodingShape.of_fits _ rfl rfl
theorem EncodingShape.and : EncodingShape.Statement .and :=
  EncodingShape.of_fits _ rfl rfl
theorem EncodingShape.or : EncodingShape.Statement .or :=
  EncodingShape.of_fits _ rfl rfl
theorem EncodingShape.xor : EncodingShape.Statement .xor :=
  EncodingShape.of_fits _ rfl rfl
theorem EncodingShape.leftShift : EncodingShape.Statement .leftShift :=
  EncodingShape.of_fits _ rfl rfl
theorem EncodingShape.rightShift : EncodingShape.Statement .rightShift :=
  EncodingShape.of_fits _ rfl rfl
theorem EncodingShape.jmp (t : Word) : EncodingShape.Statement (.jmp t) :=
  EncodingShape.of_fits _ (decide_eq_true t.isLt) rfl
theorem EncodingShape.jmpIfEq (t : Word) : EncodingShape.Statement (.jmpIfEq t) :=
  EncodingShape.of_fits _ (decide_eq_true t.isLt) rfl
theorem EncodingShape.jmpIfNe (t : Word) : EncodingShape.Statement (.jmpIfNe t) :=
  EncodingShape.of_fits _ (decide_eq_true t.isLt) rfl
theorem EncodingShape.jmpIfGt (t : Word) : EncodingShape.Statement (.jmpIfGt t) :=
  EncodingShape.of_fits _ (decide_eq_true t.isLt) rfl
theorem EncodingShape.jmpIfLt (t : Word) : EncodingShape.Statement (.jmpIfLt t) :=
  EncodingShape.of_fits _ (decide_eq_true t.isLt) rfl
theorem EncodingShape.jmpIfGtOrEq (t : Word) : EncodingShape.Statement (.jmpIfGtOrEq t) :=
  EncodingShape.of_fits _ (decide_eq_true t.isLt) rfl
theorem EncodingShape.jmpIfLtOrEq (t : Word) : EncodingShape.Statement (.jmpIfLtOrEq t) :=
  EncodingShape.of_fits _ (decide_eq_true t.isLt) rfl
theorem EncodingShape.syscall (id : Word) : EncodingShape.Statement (.syscall id) :=
  EncodingShape.of_fits _ (decide_eq_true id.isLt) rfl

end Sys2Proof.Laws
end

