-- ==== Sys2Proof/Tests/Slice0.lean ====
section
/-! SUPPORT. The model's own tests: the well-formedness checks, one word for each constructor written out from
30_encoding.md R71 and R77, single steps of the vectors of 95_test_vectors.md, and for each claim with hypotheses a state
that meets them. -/

namespace Sys2Proof.Tests

open Sys2Proof.Machine Sys2Proof.Safety Sys2Proof.Claims

/-! ### Well-formedness (R76, R82) -/

/-- An operand where the format has none is refused. -/
theorem test_refuses_unexpected_operand : operandFits 0 (some 0) = false ∧ assemble 0x09 (some 0) = none := by decide
/-- A missing operand is refused. -/
theorem test_refuses_missing_operand : operandFits 1 none = false ∧ assemble 0x01 none = none := by decide
/-- A value that does not fit is refused, and the largest that fits is not. -/
theorem test_refuses_wide_operand :
    operandFits 1 (some 256) = false ∧ assemble 0x01 (some 256) = none ∧
      assemble 0x01 (some 255) = some (.loadU8 0xFF) := by decide
/-- An opcode that is not defined is refused. -/
theorem test_refuses_undefined_opcode : assemble 0x00 none = none ∧ assemble 0x2B none = none := by decide
theorem test_wellFormed : (Instr.loadU16 0xFFFF).wellFormed = true ∧ Instr.and.wellFormed = true := by decide

/-! ### Decoding: bytes written out from R71 and R77 -/

/-- What the decoder makes of bytes. -/
def decoded (bytes : List Byte) : Option (Instr × List Byte) := (decode bytes).toOption

theorem test_decode_immediate_loads :
    decoded [0x01, 0xA5, 0xEE] = some (.loadU8 0xA5, [0xEE]) ∧
    decoded [0x02, 0x34, 0x12, 0xEE] = some (.loadU16 0x1234, [0xEE]) ∧
    decoded [0x03, 0x80, 0x96, 0x98, 0x00, 0xEE] = some (.loadU32 10000000, [0xEE]) ∧
    decoded [0x04, 0x88, 0x77, 0x66, 0x55, 0x44, 0x33, 0x22, 0x11, 0xEE] = some (.loadU64 0x1122334455667788, [0xEE]) := by decide
theorem test_decode_memory_loads :
    decoded [0x05, 0x88, 0x77, 0x66, 0x55, 0x44, 0x33, 0x22, 0x11, 0xEE] = some (.memLoadU8 0x1122334455667788, [0xEE]) ∧
    decoded [0x06, 0x88, 0x77, 0x66, 0x55, 0x44, 0x33, 0x22, 0x11, 0xEE] = some (.memLoadU16 0x1122334455667788, [0xEE]) ∧
    decoded [0x07, 0x88, 0x77, 0x66, 0x55, 0x44, 0x33, 0x22, 0x11, 0xEE] = some (.memLoadU32 0x1122334455667788, [0xEE]) ∧
    decoded [0x08, 0x88, 0x77, 0x66, 0x55, 0x44, 0x33, 0x22, 0x11, 0xEE] = some (.memLoadU64 0x1122334455667788, [0xEE]) := by decide
theorem test_decode_moves :
    decoded [0x09, 0xEE] = some (.moveR1R2, [0xEE]) ∧
    decoded [0x0A, 0xEE] = some (.moveR1R3, [0xEE]) ∧
    decoded [0x0B, 0xEE] = some (.moveR2R1, [0xEE]) ∧
    decoded [0x0C, 0xEE] = some (.moveR2R3, [0xEE]) ∧
    decoded [0x0D, 0xEE] = some (.moveR3R1, [0xEE]) ∧
    decoded [0x0E, 0xEE] = some (.moveR3R2, [0xEE]) ∧
    decoded [0x0F, 0xEE] = some (.moveR4R1, [0xEE]) ∧
    decoded [0x10, 0xEE] = some (.moveR4R2, [0xEE]) ∧
    decoded [0x11, 0xEE] = some (.moveR4R3, [0xEE]) := by decide
theorem test_decode_stores :
    decoded [0x12, 0x88, 0x77, 0x66, 0x55, 0x44, 0x33, 0x22, 0x11, 0xEE] = some (.dumpU8 0x1122334455667788, [0xEE]) ∧
    decoded [0x13, 0x88, 0x77, 0x66, 0x55, 0x44, 0x33, 0x22, 0x11, 0xEE] = some (.dumpU16 0x1122334455667788, [0xEE]) ∧
    decoded [0x14, 0x88, 0x77, 0x66, 0x55, 0x44, 0x33, 0x22, 0x11, 0xEE] = some (.dumpU32 0x1122334455667788, [0xEE]) ∧
    decoded [0x15, 0x88, 0x77, 0x66, 0x55, 0x44, 0x33, 0x22, 0x11, 0xEE] = some (.dumpU64 0x1122334455667788, [0xEE]) := by decide
theorem test_decode_arithmetic :
    decoded [0x16, 0xEE] = some (.unsignedAdd, [0xEE]) ∧
    decoded [0x17, 0xEE] = some (.signedAdd, [0xEE]) ∧
    decoded [0x18, 0xEE] = some (.unsignedSub, [0xEE]) ∧
    decoded [0x19, 0xEE] = some (.signedSub, [0xEE]) ∧
    decoded [0x1A, 0xEE] = some (.unsignedDiv, [0xEE]) ∧
    decoded [0x1B, 0xEE] = some (.signedDiv, [0xEE]) ∧
    decoded [0x1C, 0xEE] = some (.unsignedMod, [0xEE]) ∧
    decoded [0x1D, 0xEE] = some (.signedMod, [0xEE]) := by decide
theorem test_decode_bitwise :
    decoded [0x1E, 0xEE] = some (.and, [0xEE]) ∧
    decoded [0x1F, 0xEE] = some (.or, [0xEE]) ∧
    decoded [0x20, 0xEE] = some (.xor, [0xEE]) ∧
    decoded [0x21, 0xEE] = some (.leftShift, [0xEE]) ∧
    decoded [0x22, 0xEE] = some (.rightShift, [0xEE]) := by decide
theorem test_decode_control :
    decoded [0x23, 0x88, 0x77, 0x66, 0x55, 0x44, 0x33, 0x22, 0x11, 0xEE] = some (.jmp 0x1122334455667788, [0xEE]) ∧
    decoded [0x24, 0x88, 0x77, 0x66, 0x55, 0x44, 0x33, 0x22, 0x11, 0xEE] = some (.jmpIfEq 0x1122334455667788, [0xEE]) ∧
    decoded [0x25, 0x88, 0x77, 0x66, 0x55, 0x44, 0x33, 0x22, 0x11, 0xEE] = some (.jmpIfNe 0x1122334455667788, [0xEE]) ∧
    decoded [0x26, 0x88, 0x77, 0x66, 0x55, 0x44, 0x33, 0x22, 0x11, 0xEE] = some (.jmpIfGt 0x1122334455667788, [0xEE]) ∧
    decoded [0x27, 0x88, 0x77, 0x66, 0x55, 0x44, 0x33, 0x22, 0x11, 0xEE] = some (.jmpIfLt 0x1122334455667788, [0xEE]) ∧
    decoded [0x28, 0x88, 0x77, 0x66, 0x55, 0x44, 0x33, 0x22, 0x11, 0xEE] = some (.jmpIfGtOrEq 0x1122334455667788, [0xEE]) ∧
    decoded [0x29, 0x88, 0x77, 0x66, 0x55, 0x44, 0x33, 0x22, 0x11, 0xEE] = some (.jmpIfLtOrEq 0x1122334455667788, [0xEE]) ∧
    decoded [0x2A, 0x88, 0x77, 0x66, 0x55, 0x44, 0x33, 0x22, 0x11, 0xEE] = some (.syscall 0x1122334455667788, [0xEE]) := by decide
/-- Opcode bytes that are not defined (V-D2 to V-D5), and operand bytes that are missing (V-L16 to V-L19, V-D9). -/
theorem test_decode_refuses :
    decode [0x00] = .error .unknownInstruction ∧ decode [0x2B, 0x01] = .error .unknownInstruction ∧
    decode [0xFF] = .error .unknownInstruction ∧ decode [0x01] = .error .invalidInstructionArgument ∧
    decode [0x03, 0x01, 0x02, 0x03] = .error .invalidInstructionArgument ∧
    decode [0x2A, 0x01, 0x00, 0x00, 0x00, 0x00, 0x00, 0x00] = .error .invalidInstructionArgument :=
  ⟨rfl, rfl, rfl, rfl, rfl, rfl⟩

/-! ### Single steps (95_test_vectors.md section 2) -/

/-- A call on these bytes in a memory of eight bytes, at its first step. -/
def vm (x1 x2 x3 x4 : Word) (bytes : List Byte) : State :=
  { State.construct 8 0 with regs := { r1 := x1, r2 := x2, r3 := x3, r4 := x4 }, bc := bytes, mode := .running }

/-- The bytes of a W64 instruction with an operand below 256. -/
def w64 (opcode operand : Byte) : List Byte := [opcode, operand, 0, 0, 0, 0, 0, 0, 0]

/-- The step goes on, with these registers and this `pc`. -/
def goesOn (s : State) (x1 x2 x3 x4 pc : Word) : Bool :=
  match step s with
  | .next t => decide (t.regs = { r1 := x1, r2 := x2, r3 := x3, r4 := x4 } ∧ t.pc = pc ∧ t.mode = .running)
  | _ => false

/-- The step ends the call with this error and changes nothing else. -/
def ends (s : State) (k : ErrorKind) : Bool :=
  match step s with
  | .next t => decide (t = { s with mode := .done (.error k) })
  | _ => false

/-- The memory after the step. -/
def memAfter (s : State) : Option (List Host.Cell) :=
  match step s with
  | .next t => some t.mem
  | _ => none

/-- The memory 11 22 33 44 55 66 77 88 of section 2.2. -/
def bytes8 : List Host.Cell :=
  [(0, 0x11), (1, 0x22), (2, 0x33), (3, 0x44), (4, 0x55), (5, 0x66), (6, 0x77), (7, 0x88)]

theorem test_V_L1 : goesOn (vm 9 0 0 1 [0x01, 0x00]) 0 0 0 0 2 = true := by decide
theorem test_V_L13 : goesOn (vm 0 0 0 0 [0x02, 0x34, 0x12]) 0x1234 0 0 0 3 = true := by decide
theorem test_V_L15 : goesOn (vm 0xFFFFFFFFFFFFFFFF 0 0 0 [0x03, 0xFF, 0xFF, 0xFF, 0xFF]) 0xFFFFFFFF 0 0 0 5 = true := by decide
theorem test_V_L14 : goesOn (vm 0 0 0 0 [0x04, 0x88, 0x77, 0x66, 0x55, 0x44, 0x33, 0x22, 0x11]) 0x1122334455667788 0 0 0 9 = true := by decide
theorem test_V_L16 : ends (vm 7 0 0 0 [0x01]) .invalidInstructionArgument = true := by decide
theorem test_V_M2 : goesOn { vm 0 0 0 1 (w64 0x05 7) with mem := bytes8 } 0x88 0 0 0 9 = true := by decide
theorem test_V_M3 : goesOn { vm 0 0 0 1 (w64 0x06 6) with mem := bytes8 } 0x8877 0 0 0 9 = true := by decide
theorem test_V_M4 : goesOn { vm 0 0 0 1 (w64 0x07 1) with mem := bytes8 } 0x55443322 0 0 0 9 = true := by decide
theorem test_V_M5 : goesOn { vm 0 0 0 1 (w64 0x08 0) with mem := bytes8 } 0x8877665544332211 0 0 0 9 = true := by decide
theorem test_V_M6 : ends { vm 0 0 0 1 (w64 0x08 1) with mem := bytes8 } .invalidMemoryLocation = true := by decide
theorem test_V_M9 : ends { vm 0 0 0 1 (0x06 :: List.replicate 8 0xFF) with mem := bytes8 } .invalidMemoryLocation = true := by decide
theorem test_V_R1 : goesOn (vm 0xA 0xB 0xC 1 [0x09]) 0xA 0xA 0xC 0 1 = true := by decide
theorem test_V_R2 : goesOn (vm 0xA 0xB 0xC 1 [0x0A]) 0xA 0xB 0xA 0 1 = true := by decide
theorem test_V_R3 : goesOn (vm 0xA 0xB 0xC 1 [0x0B]) 0xB 0xB 0xC 0 1 = true := by decide
theorem test_V_R4 : goesOn (vm 0xA 0xB 0xC 1 [0x0C]) 0xA 0xB 0xB 0 1 = true := by decide
theorem test_V_R5 : goesOn (vm 0xA 0xB 0xC 1 [0x0D]) 0xC 0xB 0xC 0 1 = true := by decide
theorem test_V_R6 : goesOn (vm 0xA 0xB 0xC 1 [0x0E]) 0xA 0xC 0xC 0 1 = true := by decide
theorem test_V_R7 : goesOn (vm 0xA 0xB 0xC 1 [0x0F]) 1 0xB 0xC 0 1 = true := by decide
theorem test_V_R8 : goesOn (vm 0xA 0xB 0xC 1 [0x10]) 0xA 1 0xC 0 1 = true := by decide
theorem test_V_R9 : goesOn (vm 0xA 0xB 0xC 1 [0x11]) 0xA 0xB 1 0 1 = true := by decide
theorem test_V_S1 : memAfter (vm 0x1122334455667788 0 0 1 (w64 0x12 7)) = some [(7, 0x88)] := by decide
theorem test_V_S2 : memAfter (vm 0x1122334455667788 0 0 1 (w64 0x13 0)) = some [(0, 0x88), (1, 0x77)] := by decide
theorem test_V_S3 : memAfter (vm 0x1122334455667788 0 0 1 (w64 0x14 3)) =
    some [(3, 0x88), (4, 0x77), (5, 0x66), (6, 0x55)] := by decide
theorem test_V_S4 : memAfter (vm 0x1122334455667788 0 0 1 (w64 0x15 0)) =
    some [(0, 0x88), (1, 0x77), (2, 0x66), (3, 0x55), (4, 0x44), (5, 0x33), (6, 0x22), (7, 0x11)] := by decide
theorem test_V_S1_registers : goesOn (vm 0x1122334455667788 0 0 1 (w64 0x12 7)) 0x1122334455667788 0 0 0 9 = true := by decide
theorem test_V_S5 : ends (vm 0x1122334455667788 0 0 1 (w64 0x15 1)) .invalidMemoryLocation = true := by decide
theorem test_V_S6 : ends (vm 0x1122334455667788 0 0 1 (w64 0x13 7)) .invalidMemoryLocation = true := by decide
theorem test_V_A2 : goesOn (vm 0xFFFFFFFFFFFFFFFF 1 0 1 [0x16]) 0 1 0 0 1 = true := by decide
theorem test_V_A4 : goesOn (vm 0xFFFFFFFFFFFFFFFF 2 0 1 [0x17]) 1 2 0 0 1 = true := by decide
theorem test_V_A3 : goesOn (vm 0x7FFFFFFFFFFFFFFF 1 0 1 [0x17]) 0x8000000000000000 1 0 0 1 = true := by decide
theorem test_V_A5 : goesOn (vm 0 1 0 1 [0x18]) 0xFFFFFFFFFFFFFFFF 1 0 0 1 = true := by decide
theorem test_V_A7 : goesOn (vm 0x8000000000000000 1 0 1 [0x19]) 0x7FFFFFFFFFFFFFFF 1 0 0 1 = true := by decide
theorem test_V_A9 : goesOn (vm 10 0 0 1 [0x1A]) 10 0 0 1 1 = true := by decide
theorem test_V_A10 : goesOn (vm 0xFFFFFFFFFFFFFFF9 2 0 1 [0x1A]) 0x7FFFFFFFFFFFFFFC 2 0 0 1 = true := by decide
theorem test_V_A14 : goesOn (vm 0xFFFFFFFFFFFFFFF9 2 0 1 [0x1B]) 0xFFFFFFFFFFFFFFFD 2 0 0 1 = true := by decide
theorem test_V_A17 : goesOn (vm 0x8000000000000000 0xFFFFFFFFFFFFFFFF 0 1 [0x1B]) 0x8000000000000000 0xFFFFFFFFFFFFFFFF 0 0 1 = true := by decide
theorem test_V_A20 : goesOn (vm 0xFFFFFFFFFFFFFFF9 2 0 1 [0x1C]) 1 2 0 0 1 = true := by decide
theorem test_V_A22 : goesOn (vm 7 0 0 1 [0x1C]) 7 0 0 1 1 = true := by decide
theorem test_V_A25 : goesOn (vm 7 0xFFFFFFFFFFFFFFFE 0 1 [0x1D]) 1 0xFFFFFFFFFFFFFFFE 0 0 1 = true := by decide
theorem test_V_A24 : goesOn (vm 0xFFFFFFFFFFFFFFF9 2 0 1 [0x1D]) 0xFFFFFFFFFFFFFFFF 2 0 0 1 = true := by decide
theorem test_V_B1 : goesOn (vm 0xF0F0 0xFF00 0 1 [0x1E]) 0xF000 0xFF00 0 0 1 = true := by decide
theorem test_V_B2 : goesOn (vm 0xF0F0 0xFF00 0 1 [0x1F]) 0xFFF0 0xFF00 0 0 1 = true := by decide
theorem test_V_B3 : goesOn (vm 0xF0F0 0xFF00 0 1 [0x20]) 0x0FF0 0xFF00 0 0 1 = true := by decide
theorem test_V_B5 : goesOn (vm 1 63 0 1 [0x21]) 0x8000000000000000 63 0 0 1 = true := by decide
theorem test_V_B6 : goesOn (vm 0xFFFFFFFFFFFFFFFF 4 0 1 [0x21]) 0xFFFFFFFFFFFFFFF0 4 0 0 1 = true := by decide
theorem test_V_B10 : goesOn (vm 0x8000000000000000 63 0 1 [0x22]) 1 63 0 0 1 = true := by decide
theorem test_V_B11 : goesOn (vm 0xFFFFFFFFFFFFFFFF 1 0 1 [0x22]) 0x7FFFFFFFFFFFFFFF 1 0 0 1 = true := by decide
/-- A call on a jump followed by bytes up to BC_LEN = 32 (section 2.7). -/
def jumpVm (x1 x3 x4 : Word) (opcode target : Byte) : State :=
  vm x1 0 x3 x4 (w64 opcode target ++ List.replicate 23 0)
theorem test_V_J7 : goesOn (jumpVm 0 0 1 0x23 16) 0 0 0 1 16 = true := by decide
theorem test_V_J2 : goesOn (jumpVm 3 3 0 0x24 16) 3 0 3 0 16 = true := by decide
theorem test_V_J3 : goesOn (jumpVm 3 4 0 0x24 16) 3 0 4 0 9 = true := by decide
theorem test_V_J4 : goesOn (jumpVm 3 3 0 0x25 16) 3 0 3 0 9 = true := by decide
theorem test_V_J19 : goesOn (jumpVm 0 0 1 0x25 16) 0 0 0 1 9 = true := by decide
theorem test_V_J5 : goesOn (jumpVm 0xFFFFFFFFFFFFFFFF 1 0 0x26 16) 0xFFFFFFFFFFFFFFFF 0 1 0 16 = true := by decide
theorem test_V_J10 : goesOn (jumpVm 5 5 0 0x26 16) 5 0 5 0 9 = true := by decide
theorem test_V_J6 : goesOn (jumpVm 0xFFFFFFFFFFFFFFFF 1 0 0x27 16) 0xFFFFFFFFFFFFFFFF 0 1 0 9 = true := by decide
theorem test_V_J8 : goesOn (jumpVm 5 5 0 0x28 16) 5 0 5 0 16 = true := by decide
theorem test_V_J9 : goesOn (jumpVm 5 5 0 0x29 16) 5 0 5 0 16 = true := by decide
theorem test_V_J11 : goesOn (jumpVm 6 5 0 0x29 16) 6 0 5 0 9 = true := by decide
theorem test_V_J13 : goesOn (jumpVm 0 0 0 0x23 31) 0 0 0 0 31 = true := by decide
theorem test_V_J12 : ends (jumpVm 0 0 0 0x23 32) .invalidMemoryLocation = true := by decide
theorem test_V_J17 : ends (jumpVm 3 3 0 0x24 32) .invalidMemoryLocation = true := by decide
theorem test_V_J18 : ends (vm 0 0 0 0 [0x23, 0x00, 0x00]) .invalidInstructionArgument = true := by decide
/-- A Syscall 1 with callback 5 registered under id 1. -/
def sysVm (x1 x4 : Word) (id : Byte) : State := { vm x1 0 0 x4 (w64 0x2A id) with sys := [(1, 5)] }
/-- The state of the wait for id 1, with what the host answers next. -/
def waitVm (x1 : Word) (as : List HostAnswer) : State :=
  { sysVm x1 0 1 with mode := .waitHost 1, env := { Env.free with answers := as } }

theorem test_V_Y1_waits : (match step (sysVm 4 1 1) with | .next t => some (t.regs.r4, t.pc, t.mode) | _ => none) =
    some (0, 0, .waitHost 1) := by decide
/-- The callback adds 1 to R1 and puts 7 into R4: R4 is not cleared again. -/
theorem test_V_Y1_continues : goesOn (waitVm 4 [.ok [.setReg .r1 5, .setReg .r4 7]]) 5 0 0 7 9 = true := by decide
theorem test_V_Y2 : ends (sysVm 0 1 2) .invalidSyscall = true := by decide
theorem test_V_Y5 : (match step (waitVm 0 [.err 3 [.writeByte 0 0xAB]]) with
    | .next t => some (t.mem, t.regs.r4, t.pc, t.mode) | _ => none) =
    some ([(0, 0xAB)], 0, 0, .done (.error (.callbackError 3))) := by decide
theorem test_V_D1 : (match step (vm 1 2 3 4 []) with | .next t => some (t.regs, t.mode) | _ => none) =
    some ({ r1 := 1, r2 := 2, r3 := 3, r4 := 4 }, .done .success) := by decide
theorem test_V_D2 : ends (vm 0 0 0 0 [0x00]) .unknownInstruction = true := by decide
theorem test_V_D5 : ends (vm 0 0 0 0 [0x2B, 0x01]) .unknownInstruction = true := by decide
theorem test_V_D6 : (match step { vm 0 0 0 0 [0x00] with maxCpuTime := 1, stop := true, env := { Env.free with stops := [false] } } with
    | .next t => some t.mode | _ => none) = some (.done (.error .cpuTimeExhausted)) := by decide
theorem test_V_D7 : (match step { vm 5 0 0 0 [0x01, 0x05] with pc := 2, maxCpuTime := 1, stop := true } with
    | .next t => some t.mode | _ => none) = some (.done .success) := by decide
theorem test_V_D8 : ends { vm 0 0 0 0 (w64 0x2A 1) with stop := true } .invalidSyscall = true := by decide
/-- R176: the codes of the results. -/
theorem test_result_codes : [Result.success, .error .invalidInstructionArgument, .error .invalidMemoryLocation,
    .error .invalidSyscall, .error .cpuTimeExhausted, .error .unknownInstruction,
    .error (.callbackError 9)].map resultCode = [0, 1, 2, 3, 4, 5, 6] := by decide
/-- From reset, a call placed by withFetchWord runs its instruction: MemLoad-U64 @0, and Load-U8 with its operand byte. -/
theorem test_fetch_after_reset :
    goesOn (State.reset.withFetchWord 72 0x08) 0 0 0 0 9 = true ∧
    goesOn (State.reset.withFetchWord 16 0x0A01) 0x0A 0 0 0 2 = true := by decide

/-! ### For each claim with hypotheses, a state that meets them -/

theorem witness_IllegalOpcodesAreUnknown : AtInstruction (vm 0 0 0 0 [0x2B]) ∧ (vm 0 0 0 0 [0x2B]).bc[0]? = some 0x2B ∧
    AtInstruction (vm 0 0 0 0 [0x00]) ∧ (0x2B : Nat) ≤ (0x2B : Byte).toNat := by decide
theorem witness_AssemblerRefusesMisfits : assemble 0x01 (some 255) = some (.loadU8 255) ∧
    (findOpcode 0x01).map (·.width) = some 1 ∧ operandFits 1 (some 255) = true ∧ 2 ^ (8 * 1) ≤ 256 ∧
    assemble 0x09 none = some .moveR1R2 ∧ (findOpcode 0x09).map (·.width) = some 0 ∧ operandFits 0 none = true := by decide
theorem witness_EncodeOfDecode : decode [0x09, 0x01] = .ok (.moveR1R2, [0x01]) := rfl
theorem witness_MixedWidthReads : Memory.wf bytes8 = true ∧ 3 + 5 ≤ 8 := by decide
theorem witness_EmptyMemoryRefusesAccess : (State.construct 0 0).memLen = 0 ∧ isLoad (.memLoadU8 0) = true ∧
    isStore (.dumpU8 0) = true := by decide
theorem witness_StepRunsDecoded : AtInstruction (vm 0 0 0 0 [0x09]) ∧
    decode ((vm 0 0 0 0 [0x09]).bc.drop (vm 0 0 0 0 [0x09]).pc.toNat) = .ok (.moveR1R2, []) :=
  ⟨by decide, rfl⟩
theorem witness_EncodedInstructionRuns : AtInstruction { vm 0 0 0 0 [0x00, 0x01, 0xFF] with pc := 1 } ∧
    [0x00, 0x01, 0xFF].drop 1 = encode (.loadU8 0xFF) ++ [] := by decide
theorem witness_HaltsExactlyAtEnd : (vm 0 0 0 0 []).mode = .running ∧ (vm 0 0 0 0 []).pc.toNat = (vm 0 0 0 0 []).bc.length ∧
    ∃ t, step (vm 0 0 0 0 []) = .next t ∧ t.mode = .done .success :=
  ⟨rfl, rfl, _, rfl, rfl⟩
theorem witness_StopEndsCall : SamplesStop { vm 0 0 0 0 [0x09] with maxCpuTime := 1, stop := true } ∧
    (vm 0 0 0 0 []).pc.toNat = (vm 0 0 0 0 []).bc.length ∧ (vm 0 0 0 0 [0x09]).maxCpuTime = 0 := by decide
theorem witness_OperandCheckIsExact : AtInstruction (vm 0 0 0 0 [0x01]) ∧ AtInstruction (vm 0 0 0 0 [0x01, 0x00]) ∧
    opcodeTable.any (fun row => row.opcode == 0x01 && row.width == 1) = true ∧
    [0x01].length < 0 + 1 + 1 ∧ 0 + 1 + 1 ≤ [0x01, 0x00].length ∧
    opcodeTable.any (fun row => row.opcode == 0x09 && row.width == 0) = true := by decide
theorem witness_RunningCallNeverStuck : (vm 0 0 0 0 [0x09]).mode = .running ∧
    ({ vm 0 0 0 0 [0x09] with pc := 1 } : State).pc.toNat ≤ [0x09].length := by decide
theorem witness_AbortsChangeNothing :
    (∃ t, step (vm 0 0 0 0 [0x00]) = .next t ∧ t.mode = .done (.error .unknownInstruction)) ∧
    ∃ t, step (waitVm 0 [.err 3 [.writeByte 0 0xAB]]) = .next t ∧ t.mode = .done (.error (.callbackError 3)) :=
  ⟨⟨_, rfl, rfl⟩, _, rfl, rfl⟩
theorem witness_ErrorsByInstruction :
    (∃ t, exec (.memLoadU8 8) (vm 0 0 0 0 []) = .next t ∧ t.mode = .done (.error .invalidMemoryLocation)) ∧
    ∃ t, exec (.syscall 2) (sysVm 0 0 2) = .next t ∧ t.mode = .done (.error .invalidSyscall) :=
  ⟨⟨_, rfl, rfl⟩, _, rfl, rfl⟩
theorem witness_PcAfterInstruction :
    (∃ t, exec .moveR1R2 (vm 0 0 0 0 [0x09]) = .next t ∧ t.mode = .running) ∧
    ∃ t, exec (.jmp 8) (vm 0 0 0 0 (w64 0x23 8)) = .next t ∧ t.mode = .running ∧ t.pc = 8 :=
  ⟨⟨_, rfl, rfl⟩, _, rfl, rfl, rfl⟩
/-- The operand check's hypotheses, one opcode for each operand width. -/
theorem witness_TruncationAborts : AtInstruction (vm 0 0 0 0 [0x01]) ∧ AtInstruction (vm 0 0 0 0 [0x02, 0x34]) ∧
    AtInstruction (vm 0 0 0 0 [0x03, 0x01, 0x02, 0x03]) ∧ AtInstruction (vm 0 0 0 0 [0x04, 0, 0, 0, 0, 0, 0, 0]) ∧
    [0x04, 0, 0, 0, 0, 0, 0, 0].length < 0 + 1 + 8 := by decide
theorem witness_MemoryLoads : (0 : Word).toNat + 8 ≤ (vm 0 0 0 0 []).memLen ∧
    (vm 0 0 0 0 []).memLen < (1 : Word).toNat + 8 := by decide
theorem witness_MemoryStores : (7 : Word).toNat + 1 ≤ (vm 0 0 0 0 []).memLen ∧ Memory.wf (vm 0 0 0 0 []).mem = true ∧
    0 < 1 ∧ (6 < (7 : Word).toNat ∨ (7 : Word).toNat + 1 ≤ 6) ∧ (vm 0 0 0 0 []).memLen < (8 : Word).toNat + 1 := by decide
theorem witness_Divisions : (vm 7 0 0 0 []).regs.r2 = 0 ∧ (vm 7 1 0 0 []).regs.r2 ≠ 0 := by decide
theorem witness_DivisionLaws : (vm 7 2 0 0 []).regs.r2 ≠ 0 ∧
    (∃ q, exec .unsignedDiv (vm 7 2 0 0 []) = .next q) ∧ (∃ r, exec .unsignedMod (vm 7 2 0 0 []) = .next r) ∧
    (∃ q, exec .signedDiv (vm 7 2 0 0 []) = .next q) ∧ ∃ r, exec .signedMod (vm 7 2 0 0 []) = .next r :=
  ⟨by decide, ⟨_, rfl⟩, ⟨_, rfl⟩, ⟨_, rfl⟩, _, rfl⟩
theorem witness_SignedAndUnsignedAgree :
    (∃ t, exec .signedAdd (vm 7 2 0 0 []) = .next t) ∧ ∃ t, exec .signedSub (vm 7 2 0 0 []) = .next t :=
  ⟨⟨_, rfl⟩, _, rfl⟩
theorem witness_BitwiseOps : 63 < 64 ∧ (∃ t, exec .and (vm 7 2 0 0 []) = .next t) ∧
    (∃ t, exec .or (vm 7 2 0 0 []) = .next t) ∧ ∃ t, exec .xor (vm 7 2 0 0 []) = .next t :=
  ⟨by decide, ⟨_, rfl⟩, ⟨_, rfl⟩, _, rfl⟩
theorem witness_Shifts : (vm 1 63 0 0 []).regs.r2.toNat < 64 ∧ 64 ≤ (vm 1 64 0 0 []).regs.r2.toNat := by decide
theorem witness_UnconditionalJump : (31 : Word).toNat < (jumpVm 0 0 0 0x23 31).bc.length ∧
    (jumpVm 0 0 0 0x23 32).bc.length ≤ (32 : Word).toNat := by decide
/-- Both outcomes of each of the six conditions, at equal values and beside them; the targets are those above. -/
theorem witness_ConditionalJumps : (3 : Word) = 3 ∧ ¬ (3 : Word) = 4 ∧ (3 : Word) ≠ 4 ∧ ¬ (3 : Word) ≠ 3 ∧
    (3 : Word) < 4 ∧ ¬ (4 : Word) < 4 ∧ (4 : Word) ≤ 4 ∧ ¬ (5 : Word) ≤ 4 := by decide
theorem witness_SyscallStartsWait : (∃ cb, ((1 : Word), cb) ∈ (sysVm 0 0 1).sys) ∧
    ∀ cb, ((2 : Word), cb) ∉ (sysVm 0 0 1).sys :=
  ⟨⟨5, by decide⟩, fun _ => by simp [sysVm]⟩
theorem witness_WaitChangesNothing : (waitVm 0 [.stillRunning]).mode = .waitHost 1 ∧
    sysLookup (waitVm 0 [.stillRunning]).sys 1 = some 5 ∧
    ((waitVm 0 [.stillRunning]).env.nextAnswer 5 (waitVm 0 [.stillRunning]).view).1 = .stillRunning := by decide
theorem witness_CallbackOkContinues : (waitVm 0 [.ok []]).mode = .waitHost 1 ∧
    sysLookup (waitVm 0 [.ok []]).sys 1 = some 5 ∧
    ((waitVm 0 [.ok []]).env.nextAnswer 5 (waitVm 0 [.ok []]).view).1 = .ok [] := by decide
theorem witness_CallbackErrorEndsCall : (waitVm 0 [.err 3 []]).mode = .waitHost 1 ∧
    sysLookup (waitVm 0 [.err 3 []]).sys 1 = some 5 ∧
    ((waitVm 0 [.err 3 []]).env.nextAnswer 5 (waitVm 0 [.err 3 []]).view).1 = .err 3 [] := by decide
theorem witness_ReentryIsRefused : (waitVm 0 [.reenters]).mode = .waitHost 1 ∧
    sysLookup (waitVm 0 [.reenters]).sys 1 = some 5 ∧
    ((waitVm 0 [.reenters]).env.nextAnswer 5 (waitVm 0 [.reenters]).view).1 = .reenters := by decide
theorem witness_CallbackCannotTouch :
    (∃ t, step (waitVm 0 [.ok []]) = .next t) ∧ (∃ t, step (waitVm 0 [.stillRunning]) = .next t) ∧
    ∃ t, step (waitVm 0 [.err 3 []]) = .next t :=
  ⟨⟨_, rfl⟩, ⟨_, rfl⟩, _, rfl⟩
theorem witness_CallbackMayLeaveAnyView : Memory.wf bytes8 = true ∧ Memory.within bytes8 (vm 0 0 0 0 []).memLen = true ∧
    sysSorted [(1, 5), (2, 5)] = true := by decide
/-- The four rows of the latch's table, and an instruction that aborts. -/
theorem witness_LatchAfterInstruction :
    (∃ t, exec .unsignedDiv (vm 10 0 0 0 []) = .next t ∧ InCall t ∧ t.regs.r4 = 1) ∧
    (∃ t, exec (.jmp 8) (vm 0 0 0 1 (w64 0x23 8)) = .next t ∧ InCall t ∧ t.regs.r4 = 1) ∧
    (∃ t, exec .and (vm 0 0 0 1 []) = .next t ∧ InCall t ∧ t.regs.r4 = 0) ∧
    (∃ t, exec (.syscall 1) (sysVm 0 1 1) = .next t ∧ InCall t ∧ t.regs.r4 = 0) ∧
    (∃ t, exec (.memLoadU8 8) (vm 0 0 0 1 []) = .next t ∧ t.mode = .done (.error .invalidMemoryLocation)) ∧
    ∃ t, State.respond (vm 0 0 0 1 []) (.ok []) = .next t :=
  ⟨⟨_, rfl, .inl rfl, rfl⟩, ⟨_, rfl, .inl rfl, rfl⟩, ⟨_, rfl, .inl rfl, rfl⟩, ⟨_, rfl, .inr ⟨1, rfl⟩, rfl⟩,
    ⟨_, rfl, rfl⟩, _, rfl⟩
/-- The hypothesis of the claims about every instruction's next state. -/
theorem witness_ExecAnswersNext : (∃ t, exec .moveR1R2 (vm 0 0 0 1 []) = .next t) ∧
    readsLatch .moveR1R2 = false ∧ isStore .moveR1R2 = false ∧
    Instr.moveR1R2 ∉ [Instr.moveR1R3, .moveR2R3, .moveR4R3] ∧ Instr.and ∉ [Instr.moveR1R2, .moveR3R2, .moveR4R2] :=
  ⟨⟨_, rfl⟩, rfl, rfl, by decide, by decide⟩
theorem witness_StopIsMonotone : InCall { vm 0 0 0 0 [0x09] with stop := true } ∧
    (∃ t, step { vm 0 0 0 0 [0x09] with stop := true } = .next t) ∧
    (vm 0 0 0 0 [0x09]).maxCpuTime = 0 ∧ InCall (waitVm 0 [.stillRunning]) ∧
    ∃ t, step (waitVm 0 [.stillRunning]) = .next t :=
  ⟨.inl rfl, ⟨_, rfl⟩, rfl, .inr ⟨1, rfl⟩, _, rfl⟩
theorem witness_StopSampleLatches : (State.construct 8 1).maxCpuTime ≠ 0 := by decide
theorem witness_ExecuteStartsCall :
    ({ State.reset with env := { Env.free with commands := [.execute [0x09]] } } : State).mode = .idle ∧
    [(0x09 : Byte)].length < 2 ^ 64 ∧
    ({ State.reset with env := { Env.free with commands := [.execute [0x09]] } } : State).env.nextCommand.1 =
      .execute [0x09] := by decide
/-- A state that fixes the next input of each kind, and one that fixes none. -/
theorem witness_InputsComeInOrder :
    ({ Env.free with stops := [true], answers := [.reenters], commands := [.nothing] } : Env).stops = [true] ∧
    ({ Env.free with stops := [true], answers := [.reenters], commands := [.nothing] } : Env).answers = [.reenters] ∧
    ({ Env.free with stops := [true], answers := [.reenters], commands := [.nothing] } : Env).commands = [.nothing] ∧
    Env.free.stops = [] ∧ Env.free.answers = [] ∧ Env.free.commands = [] := by decide
theorem witness_InvAfterConstruct : (2 ^ 64 - 1 : Nat) < 2 ^ 64 := by decide

/-- The invariant's hypothesis, at a running call and at a syscall wait, each with a next state. -/
theorem witness_StepKeepsInvariant :
    (Invariant (vm 0 0 0 0 [0x09]) ∧ ∃ t, step (vm 0 0 0 0 [0x09]) = .next t) ∧
    Invariant (waitVm 0 [.ok [.writeByte 7 1]]) ∧ ∃ t, step (waitVm 0 [.ok [.writeByte 7 1]]) = .next t := by
  refine ⟨⟨⟨rfl, rfl, by decide, rfl, by decide, fun _ => by decide, fun id h => ?_, fun _ => rfl⟩, _, rfl⟩,
    ⟨rfl, rfl, by decide, by decide, by decide, fun _ => by decide, fun id h => ?_, fun _ => rfl⟩, _, rfl⟩
  · cases h
  · cases h
    exact ⟨rfl, by decide⟩

/-- Both refusals of the claim about the host's misuse, each from a state that meets the invariant. -/
theorem witness_OnlyHostMisuseStops :
    (Invariant (waitVm 0 [.reenters]) ∧ step (waitVm 0 [.reenters]) = .refused .callbackReenters) ∧
    Invariant { State.reset with env := { Env.free with commands := [.construct (2 ^ 64) 0] } } ∧
    step { State.reset with env := { Env.free with commands := [.construct (2 ^ 64) 0] } } =
      .refused .hostArgumentTooLarge := by
  refine ⟨⟨⟨rfl, rfl, by decide, by decide, by decide, fun _ => by decide, fun id h => ?_, fun _ => rfl⟩, rfl⟩,
    ⟨rfl, rfl, by decide, rfl, by decide, fun _ => by decide, fun id h => ?_, fun _ => rfl⟩, rfl⟩
  · cases h
    exact ⟨rfl, by decide⟩
  · cases h

/-- A call with a deadline that samples the stop flag as 1 at its first step. -/
def deadlineRun (n : Nat) : State :=
  let s := { vm 0 0 0 0 [0x09] with maxCpuTime := 1, stop := true, env := { Env.free with stops := [true] } }
  if n = 0 then s else { s with mode := .done (.error .cpuTimeExhausted), env := Env.free }

theorem deadlineRun_ended (n : Nat) (h : n ≠ 0) : ¬ InCall (deadlineRun n) := by
  simp [deadlineRun, h, InCall]

/-- The hypotheses of the claim about the deadline, met together by a run. -/
theorem witness_DeadlineEndsEveryCall : CallRun deadlineRun ∧ FairDeadline deadlineRun ∧
    (deadlineRun 0).mode = .running ∧ (deadlineRun 0).maxCpuTime ≠ 0 ∧
    ∀ n, 0 ≤ n → InCall (deadlineRun n) → ∃ m, n ≤ m ∧ ∀ id, (deadlineRun m).mode ≠ .waitHost id := by
  refine ⟨fun n hn => ?_, fun k _ hk _ => absurd (hk (k + 1) (by omega)) (deadlineRun_ended _ (by omega)), rfl, by decide, ?_⟩
  · by_cases h : n = 0
    · subst h; rfl
    · exact absurd hn (deadlineRun_ended n h)
  · intro n _ hn
    by_cases h : n = 0
    · subst h; exact ⟨0, le_refl _, fun id => by simp [deadlineRun, vm]⟩
    · exact absurd hn (deadlineRun_ended n h)

end Sys2Proof.Tests
end

/-! ## The machine's invariant, progress, and little-endian reads (00_scope.md)

Proofs of O51, O52, O14, O50 and O6. An instruction's next state is taken from `Laws.exec_shape`, a step's from
`Laws.runCall_cases`, `Laws.respond_cases` and `Laws.perform_cases`; each update they name keeps the invariant by a lemma
of its own, and a step's lemma composes these. -/

namespace Sys2Proof.Laws

open Sys2Proof.Machine Sys2Proof.Safety Sys2Proof.Claims

/-! ### The decoder: an instruction's operand bytes exist -/

/-- What a successful decoding has found: a row of the opcode map, and the operand bytes of its width. -/
theorem decode_ok {bytes : List Byte} {i : Instr} {rest : List Byte} (h : decode bytes = .ok (i, rest)) :
    ∃ b bs row, bytes = b :: bs ∧ findOpcode b = some row ∧ row.width ≤ bs.length ∧
      i = row.build (leNat (bs.take row.width)) ∧ rest = bs.drop row.width := by
  cases bytes with
  | nil => cases h
  | cons b bs =>
    unfold decode at h
    cases hrow : findOpcode b with
    | none => simp [hrow] at h
    | some row =>
      by_cases hw : row.width ≤ bs.length
      · simp only [hrow, if_pos hw, Except.ok.injEq, Prod.mk.injEq] at h
        exact ⟨b, bs, row, rfl, hrow, hw, h.1.symm, h.2.symm⟩
      · simp [hrow, hw] at h

/-- The instructions a row builds have the row's operand width (R77). -/
theorem operandWidth_build {row : OpcodeRow} (h : row ∈ opcodeTable) (v : Nat) :
    (row.build v).operandWidth = row.width := by
  have hall : ∀ row ∈ opcodeTable, (row.build v).operandWidth = row.width := by
    simp [opcodeTable, opcodeLoads, opcodeMovesAndStores, opcodeAlu, opcodeControl, Instr.operandWidth]
  exact hall row h

/-- Decoding takes one opcode byte and the instruction's operand bytes (R70). -/
theorem decode_length {bytes : List Byte} {i : Instr} {rest : List Byte} (h : decode bytes = .ok (i, rest)) :
    bytes.length = 1 + i.operandWidth + rest.length := by
  obtain ⟨b, bs, row, rfl, hrow, hw, rfl, rfl⟩ := decode_ok h
  rw [operandWidth_build (List.mem_of_find?_eq_some hrow)]
  simp only [List.length_cons, List.length_drop]
  omega

/-- The instruction decoded at `pc` lies inside the bytecode with its operand bytes (R93). -/
theorem operand_inside {s : State} {i : Instr} {rest : List Byte} (h : decode s.fetchBytes = .ok (i, rest)) :
    s.pc.toNat + (1 + i.operandWidth) ≤ s.bc.length := by
  have hlen := decode_length h
  simp only [State.fetchBytes, List.length_drop] at hlen
  omega

/-! ### `pc` and the mode after an instruction -/

/-- `pc` behind an instruction that lies inside the bytecode is at most BC_LEN. -/
theorem advance_pc_le {s : State} {w : Nat} (h : s.pc.toNat + (1 + w) ≤ s.bc.length) :
    (s.advance w).pc.toNat ≤ s.bc.length := by
  have hadd : (s.pc + BitVec.ofNat 64 (1 + w)).toNat ≤ s.pc.toNat + (1 + w) := by
    rw [BitVec.toNat_add, BitVec.toNat_ofNat, Nat.add_mod_mod]
    exact Nat.mod_le _ _
  exact hadd.trans h

/-- After an instruction that lies inside the bytecode `pc` is at most BC_LEN (R30). -/
theorem ExecShape.pc_le {i : Instr} {s t : State} (h : ExecShape i s t)
    (hw : s.pc.toNat + (1 + i.operandWidth) ≤ s.bc.length) : t.pc.toNat ≤ s.bc.length := by
  cases h with
  | result | store | latch | fallThrough => exact advance_pc_le hw
  | jump target _ _ hlt => exact hlt.le
  | badLocation | badSyscall | wait => exact le_trans (Nat.le_add_right _ _) hw

/-- An instruction goes on, ends the call, or waits for the host (R95). -/
theorem ExecShape.mode_cases {i : Instr} {s t : State} (h : ExecShape i s t) :
    t.mode = s.mode ∨ (∃ id, t.mode = .waitHost id) ∨ ∃ r, t.mode = .done r := by
  cases h with
  | result | store | latch | fallThrough | jump => exact .inl rfl
  | wait id => exact .inr (.inl ⟨id, rfl⟩)
  | badLocation | badSyscall => exact .inr (.inr ⟨_, rfl⟩)

@[simp] theorem sampleStop_pc (s : State) : s.sampleStop.pc = s.pc := by rw [sampleStop_eq]
@[simp] theorem sampleStop_bc (s : State) : s.sampleStop.bc = s.bc := by rw [sampleStop_eq]
@[simp] theorem sampleStop_mode (s : State) : s.sampleStop.mode = s.mode := by rw [sampleStop_eq]

end Sys2Proof.Laws

namespace Sys2Proof.Safety

open Sys2Proof.Machine Sys2Proof.Laws

/-! ### The updates that keep the invariant -/

/-- construct meets the invariant for every length R8 allows. -/
theorem invariant_construct {m : Nat} (c : Nat) (hm : m < 2 ^ 64) : Invariant (State.construct m c) where
  memForm := rfl
  memInside := rfl
  memLenBound := hm
  sysForm := rfl
  bcLenBound := Nat.two_pow_pos 64
  pcInside := fun _ => Nat.zero_le _
  waitForm := fun _ h => nomatch h
  noWatcher := fun _ => rfl

/-- New inputs to come and a new stop flag, which is 0 without a deadline. -/
theorem Invariant.withStop {s : State} (h : Invariant s) (b : Bool) (e : Env)
    (hb : s.maxCpuTime = 0 → b = false) : Invariant { s with stop := b, env := e } :=
  { h with noWatcher := hb }

theorem Invariant.withEnv {s : State} (h : Invariant s) (e : Env) : Invariant { s with env := e } :=
  h.withStop s.stop e h.noWatcher

/-- Sampling the stop flag (R37). -/
theorem Invariant.sampleStop {s : State} (h : Invariant s) : Invariant s.sampleStop := by
  rw [sampleStop_eq]
  refine h.withStop _ _ fun h0 => ?_
  rw [sampleStop_noWatcher s h0]
  exact h.noWatcher h0

/-- The end of a call, by `State.raise` or `State.halt`. -/
theorem Invariant.ended {s : State} (h : Invariant s) (r : Result) : Invariant { s with mode := .done r } :=
  { h with
    pcInside := fun hc => by simp [InCall] at hc
    waitForm := fun _ hw => nomatch hw }

/-- New registers, memory and table, in their forms, that leave the id of a wait registered. -/
theorem Invariant.withStorage {s : State} (h : Invariant s) (rs : Regs) {m : List Host.Cell} {t : SyscallTable}
    (hm : Memory.wf m = true) (hi : Memory.within m s.memLen = true) (ht : sysSorted t = true)
    (hl : ∀ id, s.mode = .waitHost id → (sysLookup t id).isSome = true) :
    Invariant { s with regs := rs, mem := m, sys := t } :=
  { h with
    memForm := hm
    memInside := hi
    sysForm := ht
    waitForm := fun id hw => ⟨hl id hw, (h.waitForm id hw).2⟩ }

theorem Invariant.withRegs {s : State} (h : Invariant s) (rs : Regs) : Invariant { s with regs := rs } :=
  h.withStorage rs h.memForm h.memInside h.sysForm fun id hw => (h.waitForm id hw).1

/-- A store inside memory (R53). -/
theorem Invariant.store {s : State} (h : Invariant s) {a n : Nat} (v : Word) (ha : a + n ≤ s.memLen) :
    Invariant { s with mem := memWrite s.mem a n v } :=
  h.withStorage s.regs (memory_wf_memWrite _ _ _ _ h.memForm) (memory_within_memWrite _ _ _ _ _ h.memInside ha)
    h.sysForm fun id hw => (h.waitForm id hw).1

/-- `pc` moves inside the bytecode while the call runs on (R30). -/
theorem Invariant.withPc {s : State} (h : Invariant s) (hr : s.mode = .running) {p : Word}
    (hp : p.toNat ≤ s.bc.length) : Invariant { s with pc := p } :=
  { h with
    pcInside := fun _ => hp
    waitForm := fun _ hw => nomatch hr.symm.trans hw }

/-- A wait begins for a registered id, at a Syscall whose operand bytes exist (R170). -/
theorem Invariant.startWait {s : State} (h : Invariant s) {id : Word} (hl : (sysLookup s.sys id).isSome = true)
    (hp : s.pc.toNat + 9 ≤ s.bc.length) : Invariant { s with mode := .waitHost id } :=
  { h with
    pcInside := fun _ => by show s.pc.toNat ≤ s.bc.length; omega
    waitForm := fun _ hw => by cases hw; exact ⟨hl, hp⟩ }

/-- A wait ends and the call runs on (R173). -/
theorem Invariant.resumed {s : State} (h : Invariant s) (hc : InCall s) : Invariant { s with mode := .running } :=
  { h with
    pcInside := fun _ => h.pcInside hc
    waitForm := fun _ hw => nomatch hw }

/-- What the writes of the host leave, in a mode that is no wait; they do not depend on the mode before. -/
theorem Invariant.withWrites {s : State} {d : Mode} (h : Invariant { s with mode := d })
    (hd : ∀ id, d ≠ .waitHost id) (ws : List HostWrite) :
    Invariant { s with
      regs := (s.applyWrites ws).regs, mem := (s.applyWrites ws).mem, sys := (s.applyWrites ws).sys, mode := d } := by
  obtain ⟨hwf, hin, hsys⟩ := applyWrites_forms s ws h.memForm h.memInside h.sysForm
  exact h.withStorage _ hwf hin hsys fun id hw => absurd hw (hd id)

/-- The start of a call on a bytecode of a length R8 allows (R100). -/
theorem Invariant.beginCall {s : State} (h : Invariant s) {b : List Byte} (hb : b.length < 2 ^ 64) :
    Invariant (s.beginCall b) :=
  { h with
    bcLenBound := hb
    pcInside := fun _ => Nat.zero_le _
    waitForm := fun _ hw => nomatch hw
    noWatcher := fun _ => rfl }

/-! ### The invariant through a step -/

/-- An instruction of a running call that lies inside the bytecode keeps the invariant. -/
theorem Invariant.execShape {i : Instr} {s t : State} (h : Invariant s) (hr : s.mode = .running)
    (hw : s.pc.toNat + (1 + i.operandWidth) ≤ s.bc.length) (ht : ExecShape i s t) : Invariant t := by
  have hp := ht.pc_le hw
  cases ht with
  | result r v => exact (h.withRegs (s.setReg r v).clearLatch.regs).withPc hr hp
  | latch => exact (h.withRegs s.setLatch.regs).withPc hr hp
  | store n a ha => exact ((h.store _ ha).withRegs _).withPc hr hp
  | fallThrough | jump => exact h.withPc hr hp
  | badLocation | badSyscall => exact h.ended _
  | wait id hi hl =>
    subst hi
    exact (h.withRegs _).startWait hl hw

/-- A step of a running call keeps the invariant. -/
theorem Invariant.runCall {s t : State} (h : Invariant s) (hr : s.mode = .running) (ht : s.runCall = .next t) :
    Invariant t := by
  rcases runCall_cases s with ⟨_, hs⟩ | ⟨_, hs⟩ | ⟨_, _, _, hs⟩ | ⟨_, _, ⟨e, _, hs⟩ | ⟨i, rest, hd, hs⟩⟩ <;>
    rw [hs] at ht
  · cases ht; exact h.ended _
  · cases ht
  · cases ht; exact h.sampleStop.ended _
  · cases ht; exact h.sampleStop.ended _
  · obtain ⟨t', he, hshape⟩ := exec_shape i s.sampleStop
    obtain rfl : t' = t := by rw [he] at ht; cases ht; rfl
    exact h.sampleStop.execShape (by simpa using hr) (by simpa using operand_inside hd) hshape

/-- What the answer of a wait's callback leaves meets the invariant. -/
theorem Invariant.respond {s t : State} {id : Word} (h : Invariant s) (hw : s.mode = .waitHost id) {a : HostAnswer}
    (ht : s.respond a = .next t) : Invariant t := by
  rcases respond_cases s a with ⟨_, hs⟩ | ⟨ws, _, hs⟩ | ⟨e, ws, _, hs⟩ | ⟨_, hs⟩ <;> rw [hs] at ht <;> cases ht
  · exact h
  · have hrun := (h.resumed (.inr ⟨id, hw⟩)).withWrites (fun _ => nofun) ws
    rw [applyWrites_eq]
    exact hrun.withPc rfl (advance_pc_le (h.waitForm id hw).2)
  · rw [applyWrites_eq]
    exact (h.ended (.error (.callbackError e))).withWrites (fun _ => nofun) ws

/-- What the host does between calls keeps the invariant. -/
theorem Invariant.perform {s t : State} (h : Invariant s) (hm : ∀ id, s.mode ≠ .waitHost id) {c : HostCommand}
    (ht : s.perform c = .next t) : Invariant t := by
  rcases perform_cases s c with ⟨_, hs⟩ | ⟨w, _, hs⟩ | ⟨m, d, hlt, _, hs⟩ | ⟨b, hlt, _, hs⟩ | ⟨_, hs⟩ <;>
    rw [hs] at ht <;> cases ht
  · exact h
  · rw [applyWrite_eq]
    exact h.withWrites hm [w]
  · exact (invariant_construct d hlt).withEnv _
  · exact h.beginCall hlt

end Sys2Proof.Safety

namespace Sys2Proof.Laws

open Sys2Proof.Machine Sys2Proof.Safety Sys2Proof.Claims

/-! ### A step in each status -/

/-- A step between calls is an act of the host. -/
theorem step_betweenCalls {s : State} (h : s.mode = .idle ∨ ∃ r, s.mode = .done r) : step s = s.hostStep := by
  rcases h with h | ⟨r, h⟩
  · exact step_idle s h
  · exact step_done s r h

/-- A call runs or waits, or the machine is between calls. -/
theorem mode_cases (s : State) :
    s.mode = .running ∨ (∃ id, s.mode = .waitHost id) ∨ (s.mode = .idle ∨ ∃ r, s.mode = .done r) := by
  cases s.mode <;> simp

/-- Under the invariant a syscall wait is for a registered id, and its step is what the callback's answer makes of it. -/
theorem waitStep_of_invariant {s : State} {id : Word} (h : Invariant s) (hw : s.mode = .waitHost id) :
    ∃ cb, sysLookup s.sys id = some cb ∧ step s =
      State.respond { s with env := (s.env.nextAnswer cb s.view).2 } (s.env.nextAnswer cb s.view).1 := by
  obtain ⟨cb, hcb⟩ := Option.isSome_iff_exists.1 (h.waitForm id hw).1
  exact ⟨cb, hcb, (step_waitHost s id hw).trans (waitStep_registered s id cb hcb)⟩

/-- Settles O51: one case for each status of the dispatcher, each by the lemma about its operation. -/
theorem stepKeepsInvariant : Obligations.StepKeepsInvariant := by
  intro s t h ht
  rcases mode_cases s with hr | ⟨id, hw⟩ | hb
  · exact h.runCall hr (step_running s hr ▸ ht)
  · obtain ⟨cb, _, hs⟩ := waitStep_of_invariant h hw
    exact (h.withEnv (s.env.nextAnswer cb s.view).2).respond hw (hs ▸ ht)
  · have hm : ∀ id, s.mode ≠ .waitHost id := by rcases hb with hb | ⟨r, hb⟩ <;> simp [hb]
    exact (h.withEnv s.env.nextCommand.2).perform hm (step_betweenCalls hb ▸ ht)

/-- Settles O50: `State.reset` is a construct with an allowed length. -/
theorem invAfterConstruct : Obligations.InvAfterConstruct :=
  ⟨fun _ c hm => invariant_construct c hm, invariant_construct _ (by decide)⟩

/-! ### Progress -/

/-- Settles O14: of the cases of a running call's step, `pc` at most BC_LEN rules out the one that is refused. -/
theorem runningCallNeverStuck : Obligations.RunningCallNeverStuck := by
  intro s hr hpc
  rw [step_running s hr]
  rcases runCall_cases s with ⟨_, hs⟩ | ⟨hlt, _⟩ | ⟨_, _, _, hs⟩ | ⟨_, _, ⟨e, _, hs⟩ | ⟨i, rest, hd, hs⟩⟩
  · exact ⟨_, hs, hpc, .inr (.inr ⟨_, rfl⟩)⟩
  · omega
  · exact ⟨_, hs, by simpa using hpc, .inr (.inr ⟨_, rfl⟩)⟩
  · exact ⟨_, hs, by simpa using hpc, .inr (.inr ⟨_, rfl⟩)⟩
  · obtain ⟨t, he, hshape⟩ := exec_shape i s.sampleStop
    have hle := hshape.pc_le (by simpa using operand_inside hd)
    have hmode := hshape.mode_cases
    rw [sampleStop_mode, hr] at hmode
    exact ⟨t, hs.trans he, by simpa using hle, hmode⟩

/-- Settles O52: a running call by O14, a wait by its callback's answer, a machine between calls by the host's command. -/
theorem onlyHostMisuseStops : Obligations.OnlyHostMisuseStops := by
  intro s h
  rcases mode_cases s with hr | ⟨id, hw⟩ | hb
  · obtain ⟨t, ht, _⟩ := runningCallNeverStuck s hr (h.pcInside (.inl hr))
    exact .inl ⟨t, ht⟩
  · obtain ⟨cb, hcb, hs⟩ := waitStep_of_invariant h hw
    rw [hs]
    rcases respond_cases { s with env := (s.env.nextAnswer cb s.view).2 } (s.env.nextAnswer cb s.view).1 with
      ⟨_, ho⟩ | ⟨_, _, ho⟩ | ⟨_, _, _, ho⟩ | ⟨ha, ho⟩
    · exact .inl ⟨_, ho⟩
    · exact .inl ⟨_, ho⟩
    · exact .inl ⟨_, ho⟩
    · exact .inr (.inl ⟨ho, id, cb, hw, hcb, ha⟩)
  · rw [step_betweenCalls hb]
    rcases perform_cases { s with env := s.env.nextCommand.2 } s.env.nextCommand.1 with
      ⟨_, ho⟩ | ⟨_, _, ho⟩ | ⟨_, _, _, _, ho⟩ | ⟨_, _, _, ho⟩ | ⟨hlong, ho⟩
    · exact .inl ⟨_, ho⟩
    · exact .inl ⟨_, ho⟩
    · exact .inl ⟨_, ho⟩
    · exact .inl ⟨_, ho⟩
    · exact .inr (.inr ⟨ho, hb, hlong⟩)

/-! ### Little-endian sums -/

@[simp] theorem littleEndian_zero (f : Nat → Nat) : littleEndian 0 f = 0 := rfl

/-- A little-endian sum, taken apart at its least significant byte. -/
theorem littleEndian_succ (n : Nat) (f : Nat → Nat) :
    littleEndian (n + 1) f = f 0 + 256 * littleEndian n fun k => f (k + 1) := by
  have hterm : ∀ k, f (k + 1) * 2 ^ (8 * (k + 1)) = 256 * (f (k + 1) * 2 ^ (8 * k)) := fun k => by
    rw [Nat.mul_add, Nat.pow_add]; ring
  simp [littleEndian, List.range_succ_eq_map, Function.comp_def, hterm, List.sum_map_mul_left]

/-- The value of bytes is their little-endian sum (R13). -/
theorem leNat_eq_littleEndian (bs : List Byte) :
    leNat bs = littleEndian bs.length fun k => (bs.getD k 0).toNat := by
  induction bs with
  | nil => rfl
  | cons b bs ih => simp [littleEndian_succ, ih]

/-- A memory read is the little-endian sum of the bytes it reads (R14). -/
theorem memRead_eq_littleEndian (m : List Host.Cell) (a n : Nat) :
    memRead m a n = littleEndian n fun k => (readByte m (a + k)).toNat := by
  induction n generalizing a with
  | zero => rfl
  | succ n ih =>
    have hsucc : memRead m a (n + 1) = (readByte m a).toNat + 256 * memRead m (a + 1) n := rfl
    simp [hsucc, ih, littleEndian_succ, Nat.add_assoc, Nat.add_comm 1]

/-- Settles O6. -/
theorem readsAreLittleEndian : Obligations.ReadsAreLittleEndian :=
  ⟨memRead_eq_littleEndian, leNat_eq_littleEndian⟩

end Sys2Proof.Laws

/-! ## What an instruction changes, and what it cannot see (10_state.md)

Proofs of O17, O38, O39, O40, O42, O43, O44 and O45. What an instruction leaves is read off its `Laws.ExecShape`; that it
cannot see R4, the stop flag, the deadline and the inputs to come is one statement about two runs, proved for each shared
operation and then for each instruction. -/

namespace Sys2Proof.Laws

open Sys2Proof.Machine Sys2Proof.Safety Sys2Proof.Claims

/-! ### What a shape changes -/

/-- The next state of an instruction has one of the shapes. -/
theorem execShape_of_next {i : Instr} {s t : State} (h : exec i s = .next t) : ExecShape i s t := by
  obtain ⟨t', ht', hshape⟩ := exec_shape i s
  cases h.symm.trans ht'
  exact hshape

/-- An instruction changes registers, memory, `pc` and the mode only. -/
theorem ExecShape.frame {i : Instr} {s t : State} (h : ExecShape i s t) :
    t = { s with regs := t.regs, mem := t.mem, pc := t.pc, mode := t.mode } := by
  cases h <;> rfl

/-- R2 and R3 are written by the moves into them alone (R25). -/
theorem ExecShape.reg_eq {i : Instr} {s t : State} (h : ExecShape i s t) {q : Reg} (h1 : q ≠ .r1) (h4 : q ≠ .r4)
    (h2 : q = .r2 → i ∉ [Instr.moveR1R2, .moveR3R2, .moveR4R2])
    (h3 : q = .r3 → i ∉ [Instr.moveR1R3, .moveR2R3, .moveR4R3]) : t.reg q = s.reg q := by
  cases h with
  | result r v _ _ _ _ hr2 hr3 =>
    have hqr : q ≠ r := by
      rintro rfl
      cases q with
      | r1 => exact h1 rfl
      | r2 => exact h2 rfl (hr2 rfl)
      | r3 => exact h3 rfl (hr3 rfl)
      | r4 => exact h4 rfl
    exact (regGet_regSet_other _ 0 h4).trans (regGet_regSet_other _ v hqr)
  | store | wait => exact regGet_regSet_other _ 0 h4
  | latch => exact regGet_regSet_other _ 1 h4
  | fallThrough | jump | badLocation | badSyscall => rfl

/-- Settles O42: everything but R2 and R3 by `ExecShape.frame`, those by `ExecShape.reg_eq`. -/
theorem instructionsLeaveAlone : Obligations.InstructionsLeaveAlone := by
  intro i s t h
  have hshape := execShape_of_next h
  rw [hshape.frame]
  exact ⟨rfl, rfl, rfl, rfl, rfl, rfl,
    fun hi => hshape.reg_eq (q := .r2) nofun nofun (fun _ => hi) nofun,
    fun hi => hshape.reg_eq (q := .r3) nofun nofun nofun fun _ => hi⟩

/-- Settles O17: of the shapes that go on, only a jump that is taken does not advance `pc`. -/
theorem pcAfterInstruction : Obligations.PcAfterInstruction := by
  intro i s t _ h ht
  cases execShape_of_next h with
  | result | store | latch | fallThrough => exact .inl rfl
  | jump target hj hv hlt => exact .inr ⟨hj, hv, hlt⟩
  | badLocation | badSyscall | wait => cases ht

/-! ### R4 -/

/-- A store is no division and no jump. -/
theorem not_division_jump_of_store {i : Instr} (h : isStore i = true) : isDivision i = false ∧ isJump i = false := by
  cases i with
  | dumpU8 | dumpU16 | dumpU32 | dumpU64 => exact ⟨rfl, rfl⟩
  | _ => cases h

/-- A jump is no division. -/
theorem not_division_of_jump {i : Instr} (h : isJump i = true) : isDivision i = false := by
  cases i with
  | jmp | jmpIfEq | jmpIfNe | jmpIfGt | jmpIfLt | jmpIfGtOrEq | jmpIfLtOrEq => rfl
  | _ => cases h

/-- R4 after an instruction that does not end the call (R33). -/
theorem ExecShape.latch_of_inCall {i : Instr} {s t : State} (h : ExecShape i s t) (ht : InCall t) :
    t.regs.r4 = if isDivision i then (if s.regs.r2 = 0 then 1 else 0) else if isJump i then s.regs.r4 else 0 := by
  cases h with
  | result r v _ _ hj hd =>
    cases hdiv : isDivision i with
    | true => exact (if_neg (hd hdiv)).symm
    | false => simp [hj]
  | store _ _ _ hs => simp [not_division_jump_of_store hs]
  | latch hd h0 => simp [hd, h0]
  | fallThrough hj | jump _ hj => simp [hj, not_division_of_jump hj]
  | badLocation | badSyscall => simp [InCall] at ht
  | wait id hi => subst hi; rfl

/-- An instruction that ends a running call leaves R4. -/
theorem ExecShape.latch_of_done {i : Instr} {s t : State} (h : ExecShape i s t) (hs : s.mode = .running) {r : Result}
    (ht : t.mode = .done r) : t.regs.r4 = s.regs.r4 := by
  cases h with
  | result | store | latch | fallThrough | jump => exact nomatch hs.symm.trans ht
  | wait => cases ht
  | badLocation | badSyscall => rfl

/-- Settles O38: the instructions by their shapes; what a callback left and what construct gives are computed. -/
theorem latchAfterInstruction : Obligations.LatchAfterInstruction := by
  refine ⟨fun i s t _ h ht => (execShape_of_next h).latch_of_inCall ht,
    fun i s t k hs h ht => (execShape_of_next h).latch_of_done hs ht, fun s t ws h => ?_, fun _ _ => rfl⟩
  cases h
  rfl

/-- Settles O39: a shape clears R4, sets it to 1, or leaves it. -/
theorem instructionsOnlyLatch : Obligations.InstructionsOnlyLatch := by
  intro i s t h
  cases execShape_of_next h with
  | result | store | wait => exact .inr (.inl rfl)
  | latch => exact .inr (.inr rfl)
  | fallThrough | jump | badLocation | badSyscall => exact .inl rfl

/-! ### What an instruction cannot see: two runs -/

/-- The state with the parts replaced that instructions do not see: R4, but for the moves out of it (R24), the stop
flag, MAX_CPU_TIME and the inputs to come (R36, R37). -/
def withUnseen (s : State) (v : Word) (b : Bool) (c : Nat) (e : Env) : State :=
  { withLatch s v with stop := b, maxCpuTime := c, env := e }

/-- Two runs, the second begun from `s` with its unseen parts replaced: both have a next state, and these differ in the
same parts; in R4 only if the states before them did. -/
def SameButUnseen (s : State) (v : Word) (b : Bool) (c : Nat) (e : Env)
    (o o' : Host.Outcome State Fault Refusal) : Prop :=
  ∃ t v', o = .next t ∧ o' = .next (withUnseen t v' b c e) ∧ (v = s.regs.r4 → v' = t.regs.r4)

section
variable {s : State} {v : Word} {b : Bool} {c : Nat} {e : Env}

/-- Two runs that branch on the same condition. -/
theorem SameButUnseen.ite {p : Prop} [Decidable p] {x y x' y' : Host.Outcome State Fault Refusal}
    (hx : SameButUnseen s v b c e x x') (hy : SameButUnseen s v b c e y y') :
    SameButUnseen s v b c e (if p then x else y) (if p then x' else y') := by
  split
  · exact hx
  · exact hy

theorem raise_sameButUnseen (k : ErrorKind) :
    SameButUnseen s v b c e (.next (s.raise k)) (.next ((withUnseen s v b c e).raise k)) := ⟨_, v, rfl, rfl, id⟩

theorem jumpTo_sameButUnseen (t : Word) :
    SameButUnseen s v b c e (.next (s.jumpTo t)) (.next ((withUnseen s v b c e).jumpTo t)) := ⟨_, v, rfl, rfl, id⟩

theorem advance_sameButUnseen (w : Nat) :
    SameButUnseen s v b c e (.next (s.advance w)) (.next ((withUnseen s v b c e).advance w)) := ⟨_, v, rfl, rfl, id⟩

theorem result_sameButUnseen (r : Reg) (x : Word) (w : Nat) :
    SameButUnseen s v b c e (s.result r x w) ((withUnseen s v b c e).result r x w) :=
  ⟨_, 0, rfl, by cases r <;> rfl, fun _ => rfl⟩

theorem loadR1_sameButUnseen (n : Nat) (a : Word) :
    SameButUnseen s v b c e (s.loadR1 n a) ((withUnseen s v b c e).loadR1 n a) :=
  .ite (result_sameButUnseen .r1 _ 8) (raise_sameButUnseen _)

theorem dumpR1_sameButUnseen (n : Nat) (a : Word) :
    SameButUnseen s v b c e (s.dumpR1 n a) ((withUnseen s v b c e).dumpR1 n a) :=
  .ite ⟨_, 0, rfl, rfl, fun _ => rfl⟩ (raise_sameButUnseen _)

/-- A move sees R4 only as its source. -/
theorem move_sameButUnseen (src dst : Reg) (h : src = .r4 → v = s.regs.r4) :
    SameButUnseen s v b c e (s.move src dst) ((withUnseen s v b c e).move src dst) := by
  have hsrc : (withUnseen s v b c e).reg src = s.reg src := by
    cases src with
    | r4 => exact h rfl
    | r1 | r2 | r3 => rfl
  unfold State.move
  rw [hsrc]
  exact result_sameButUnseen dst _ 0

theorem divide_sameButUnseen (f : Word → Word → Word) :
    SameButUnseen s v b c e (s.divide f) ((withUnseen s v b c e).divide f) :=
  .ite ⟨_, 1, rfl, rfl, fun _ => rfl⟩ (result_sameButUnseen .r1 _ 0)

theorem execJmp_sameButUnseen (t : Word) :
    SameButUnseen s v b c e (execJmp t s) (execJmp t (withUnseen s v b c e)) :=
  .ite (jumpTo_sameButUnseen t) (raise_sameButUnseen _)

theorem branch_sameButUnseen (taken : Bool) (t : Word) :
    SameButUnseen s v b c e (s.branch taken t) ((withUnseen s v b c e).branch taken t) := by
  refine .ite ?_ (.ite (raise_sameButUnseen _) (advance_sameButUnseen 8))
  cases taken with
  | true => exact jumpTo_sameButUnseen t
  | false => exact advance_sameButUnseen 8

theorem execSyscall_sameButUnseen (id : Word) :
    SameButUnseen s v b c e (execSyscall id s) (execSyscall id (withUnseen s v b c e)) := by
  have hsys : (withUnseen s v b c e).sys = s.sys := rfl
  unfold execSyscall
  rw [hsys]
  cases sysLookup s.sys id with
  | none => exact raise_sameButUnseen _
  | some _ => exact ⟨_, 0, rfl, rfl, fun _ => rfl⟩

/-- No instruction sees the unseen parts, but for the moves out of R4, which see R4 (R24, R36, R37). -/
theorem exec_sameButUnseen (i : Instr) (h : readsLatch i = true → v = s.regs.r4) :
    SameButUnseen s v b c e (exec i s) (exec i (withUnseen s v b c e)) := by
  cases i with
  | loadU8 | loadU16 | loadU32 | loadU64 => exact result_sameButUnseen .r1 _ _
  | memLoadU8 a | memLoadU16 a | memLoadU32 a | memLoadU64 a => exact loadR1_sameButUnseen _ a
  | moveR1R2 | moveR1R3 | moveR2R1 | moveR2R3 | moveR3R1 | moveR3R2 => exact move_sameButUnseen _ _ nofun
  | moveR4R1 | moveR4R2 | moveR4R3 => exact move_sameButUnseen .r4 _ fun _ => h rfl
  | dumpU8 a | dumpU16 a | dumpU32 a | dumpU64 a => exact dumpR1_sameButUnseen _ a
  | unsignedDiv | signedDiv | unsignedMod | signedMod => exact divide_sameButUnseen _
  | unsignedAdd | signedAdd | unsignedSub | signedSub | and | or | xor | leftShift | rightShift =>
    exact result_sameButUnseen .r1 _ 0
  | jmp t => exact execJmp_sameButUnseen t
  | jmpIfEq t | jmpIfNe t | jmpIfGt t | jmpIfLt t | jmpIfGtOrEq t | jmpIfLtOrEq t => exact branch_sameButUnseen _ t
  | syscall id => exact execSyscall_sameButUnseen id

end

/-- Settles O43: the two runs, with R4 the same in both. -/
theorem deadlineIsInvisible : Obligations.DeadlineIsInvisible := by
  intro i s t b c e h
  obtain ⟨t', v', ht', hrun, hv⟩ := exec_sameButUnseen (s := s) (b := b) (c := c) (e := e) i fun _ => rfl
  cases h.symm.trans ht'
  cases hv rfl
  exact hrun

/-- Settles O40: the two runs, with the stop flag, the deadline and the inputs the same in both; the first run leaves
these as they were. -/
theorem latchReadOnlyByMoves : Obligations.LatchReadOnlyByMoves := by
  intro i s t v hi h
  obtain ⟨t', v', ht', hrun, _⟩ :=
    exec_sameButUnseen (s := s) (v := v) (b := s.stop) (c := s.maxCpuTime) (e := s.env) i fun hr => by simp [hi] at hr
  cases h.symm.trans ht'
  refine ⟨_, hrun, ?_⟩
  rw [(execShape_of_next h).frame]
  rfl

/-! ### The stop flag during a call -/

/-- Settles O45: with a deadline `State.sampleStop` is the sample. -/
theorem stopSampleLatches : Obligations.StopSampleLatches := fun _ hc => if_neg hc

/-- A step of a running call leaves the stop flag as it was or as it is sampled. -/
theorem runCall_stop {s t : State} (h : s.runCall = .next t) : t.stop = s.stop ∨ t.stop = s.sampleStop.stop := by
  rcases runCall_cases s with ⟨_, hs⟩ | ⟨_, hs⟩ | ⟨_, _, _, hs⟩ | ⟨_, _, ⟨_, _, hs⟩ | ⟨i, _, _, hs⟩⟩ <;> rw [hs] at h
  · cases h; exact .inl rfl
  · cases h
  · cases h; exact .inr rfl
  · cases h; exact .inr rfl
  · exact .inr (by rw [(execShape_of_next h).frame])

/-- The answer of a wait's callback leaves the stop flag. -/
theorem respond_stop {s t : State} {a : HostAnswer} (h : s.respond a = .next t) : t.stop = s.stop := by
  have hws : ∀ ws, (s.applyWrites ws).stop = s.stop := fun ws => by rw [applyWrites_eq]
  rcases respond_cases s a with ⟨_, hs⟩ | ⟨ws, _, hs⟩ | ⟨_, ws, _, hs⟩ | ⟨_, hs⟩ <;> rw [hs] at h <;> cases h
  · rfl
  · exact hws ws
  · exact hws ws

/-- A step of a syscall wait leaves the stop flag (R172). -/
theorem waitStep_stop {s t : State} {id : Word} (h : s.waitStep id = .next t) : t.stop = s.stop := by
  cases hl : sysLookup s.sys id with
  | none => simp [State.waitStep, hl] at h
  | some cb =>
    rw [waitStep_registered s id cb hl] at h
    exact (respond_stop h :)

/-- Settles O44: a step of a call leaves the flag or samples it, and a sample only sets it. -/
theorem stopIsMonotone : Obligations.StopIsMonotone := by
  intro s t hc h
  have hstop : t.stop = s.stop ∨ t.stop = s.sampleStop.stop := by
    rcases hc with hr | ⟨id, hw⟩
    · exact runCall_stop (step_running s hr ▸ h)
    · exact .inl (waitStep_stop (step_waitHost s id hw ▸ h))
  rcases hstop with hkept | hsampled
  · exact ⟨hkept.trans, fun _ => hkept⟩
  · refine ⟨fun hs => hsampled.trans (sampleStop_monotone s hs), fun h0 => ?_⟩
    rwa [sampleStop_noWatcher s h0] at hsampled

end Sys2Proof.Laws

/-! ## Guest memory: reads after a store, accesses outside it, and what writes it (20_memory.md)

Proofs of O7, O8 and O41. The bytes that a read finds inside a store are once more the bytes of a value, the stored one
shifted down; a load or store outside memory ends the call whatever its width; and of the shapes an instruction's next
state can have (`Laws.ExecShape`) only that of a store writes memory. -/

namespace Sys2Proof.Laws

open Sys2Proof.Machine Sys2Proof.Safety Sys2Proof.Claims

/-! ### Reads inside a store -/

/-- A byte inside a store is that byte of the stored value (R11, R14). -/
theorem readByte_memWrite_inside {m : List Host.Cell} (hm : Memory.wf m = true) (a : Nat) {n k : Nat} (v : Word)
    (hk : k < n) : readByte (memWrite m a n v) (a + k) = BitVec.ofNat 8 (v.toNat / 256 ^ k) := by
  have hlen : k < (leBytes n v.toNat).length := by rwa [leBytes_length]
  exact (readByte_writeBytes_inside m a _ hm k hlen).trans (leBytes_getElem n _ k hlen)

/-- The bytes read from offset `k` of a store on are those of the stored value shifted down by `k` bytes (R52). -/
theorem readBytes_memWrite_inside {m : List Host.Cell} (hm : Memory.wf m = true) (a : Nat) {n k j : Nat} (v : Word)
    (hkj : k + j ≤ n) : readBytes (memWrite m a n v) (a + k) j = leBytes j (v.toNat / 256 ^ k) := by
  induction j generalizing k with
  | zero => rfl
  | succ j ih =>
    have hhead := readByte_memWrite_inside hm a v (show k < n by omega)
    have htail := ih (k := k + 1) (by omega)
    rw [leBytes_succ, Nat.div_div_eq_div_mul, ← Nat.pow_succ, ← hhead, ← htail]
    rfl

/-- Settles O7: the bytes read are those of the shifted value, whose low `j` bytes are its value modulo `2^(8j)`. -/
theorem mixedWidthReads : Obligations.MixedWidthReads := by
  intro m a n v hm k j hkj
  rw [memRead, readBytes_memWrite_inside hm a v hkj, leNat_leBytes, show 2 ^ (8 * k) = 256 ^ k from Nat.pow_mul 2 8 k]

/-! ### Accesses outside memory -/

/-- An access that reaches past the end of memory is out of bounds, in exact arithmetic (R53). -/
theorem inBounds_eq_false {s : State} {a : Word} {n : Nat} (h : s.memLen < a.toNat + n) : s.inBounds a n = false :=
  decide_eq_false (Nat.not_le.2 h)

/-- A load outside memory ends the call and changes nothing else. -/
theorem loadR1_outside {s : State} {a : Word} {n : Nat} (h : s.memLen < a.toNat + n) :
    s.loadR1 n a = .next (aborted s .invalidMemoryLocation) :=
  ((loadR1_cases s n a).resolve_left (by simp [inBounds_eq_false h])).2

/-- A store outside memory ends the call and changes nothing else. -/
theorem dumpR1_outside {s : State} {a : Word} {n : Nat} (h : s.memLen < a.toNat + n) :
    s.dumpR1 n a = .next (aborted s .invalidMemoryLocation) :=
  ((dumpR1_cases s n a).resolve_left (by simp [inBounds_eq_false h])).2

/-- Settles O8: every load and store accesses at least one byte, which no memory of length 0 holds. -/
theorem emptyMemoryRefusesAccess : Obligations.EmptyMemoryRefusesAccess := by
  intro i s h0 hi
  have hout : ∀ (a : Word) {n : Nat}, 0 < n → s.memLen < a.toNat + n := fun a n hn => by omega
  cases i with
  | memLoadU8 a | memLoadU16 a | memLoadU32 a | memLoadU64 a => exact loadR1_outside (hout a (by decide))
  | dumpU8 a | dumpU16 a | dumpU32 a | dumpU64 a => exact dumpR1_outside (hout a (by decide))
  | _ => simp [isLoad, isStore] at hi

/-! ### What writes memory -/

/-- Settles O41: every shape but that of a store leaves memory. -/
theorem onlyStoresWriteMemory : Obligations.OnlyStoresWriteMemory := by
  intro i s t hi h
  cases execShape_of_next h with
  | store n a _ hs => simp [hi] at hs
  | result | latch | fallThrough | jump | badLocation | badSyscall | wait => rfl

end Sys2Proof.Laws

/-! ## The encoding: decoder, encoder and assembler (30_encoding.md)

Proofs of O1 to O5. Two facts tie the opcode map to the instructions: the row of an instruction's opcode builds that
instruction from its operand (`findOpcode_opcode`), and what a row builds has the row's opcode, width and operand
(`opcode_operandValue_build`, `operandWidth_build`). Each round trip is one of them and the round trip of little-endian
bytes (`leNat_leBytes`, `leBytes_leNat`). -/

namespace Sys2Proof.Laws

open Sys2Proof.Machine Sys2Proof.Safety Sys2Proof.Claims

/-! ### From an instruction to its row of the opcode map -/

/-- The opcode map has a row for every instruction's opcode, which builds the instruction from its operand (R77). -/
theorem findOpcode_opcode (i : Instr) :
    ∃ row, findOpcode i.opcode = some row ∧ row.width = i.operandWidth ∧ row.build (i.operandValue.getD 0) = i := by
  cases i with
  | loadU8 v | loadU16 v | loadU32 v | loadU64 v | memLoadU8 v | memLoadU16 v | memLoadU32 v | memLoadU64 v | dumpU8 v
  | dumpU16 v | dumpU32 v | dumpU64 v | jmp v | jmpIfEq v | jmpIfNe v | jmpIfGt v | jmpIfLt v | jmpIfGtOrEq v
  | jmpIfLtOrEq v | syscall v => exact ⟨_, rfl, rfl, by simp [Instr.operandValue]⟩
  | _ => exact ⟨_, rfl, rfl, rfl⟩

/-- Every instruction is well formed: a bit vector's value fits its width (R76). -/
theorem wellFormed_all (i : Instr) : i.wellFormed = true := by
  cases i with
  | loadU8 v | loadU16 v | loadU32 v | loadU64 v | memLoadU8 v | memLoadU16 v | memLoadU32 v | memLoadU64 v | dumpU8 v
  | dumpU16 v | dumpU32 v | dumpU64 v | jmp v | jmpIfEq v | jmpIfNe v | jmpIfGt v | jmpIfLt v | jmpIfGtOrEq v
  | jmpIfLtOrEq v | syscall v => exact decide_eq_true v.isLt
  | _ => rfl

/-- No value fits just where there is no operand (R82). -/
theorem operandFits_none_iff {w : Nat} : operandFits w none = true ↔ w = 0 := beq_iff_eq

/-- A value fits an operand of `w` bytes when it is below `2^(8w)` (R82). -/
theorem operandFits_some_iff {w v : Nat} : operandFits w (some v) = true ↔ w ≠ 0 ∧ v < 2 ^ (8 * w) := by
  simp [operandFits]

/-- A value that fits `w` bytes is below `2^(8w)`, and so is the 0 that stands for no value. -/
theorem getD_lt_of_operandFits {w : Nat} {value : Option Nat} (h : operandFits w value = true) :
    value.getD 0 < 2 ^ (8 * w) := by
  cases value with
  | none => exact Nat.two_pow_pos _
  | some v => exact (operandFits_some_iff.1 h).2

/-! ### From a row of the opcode map to what it builds -/

/-- The row found for a byte is a row of the opcode map with that opcode. -/
theorem findOpcode_some {b : Byte} {row : OpcodeRow} (h : findOpcode b = some row) :
    row ∈ opcodeTable ∧ row.opcode = b :=
  ⟨List.mem_of_find?_eq_some h, by simpa using List.find?_some h⟩

/-- What a row builds has the row's opcode, and as its operand none in format N, else the low bytes of the value,
as many as the row's width (R71, R77). -/
theorem opcode_operandValue_build {row : OpcodeRow} (h : row ∈ opcodeTable) (v : Nat) :
    (row.build v).opcode = row.opcode ∧
      (row.build v).operandValue = if row.width = 0 then none else some (v % 2 ^ (8 * row.width)) := by
  have hall : ∀ row ∈ opcodeTable, (row.build v).opcode = row.opcode ∧
      (row.build v).operandValue = if row.width = 0 then none else some (v % 2 ^ (8 * row.width)) := by
    simp only [opcodeTable, opcodeLoads, opcodeMovesAndStores, opcodeAlu, opcodeControl, List.forall_mem_append,
      List.forall_mem_cons, List.not_mem_nil, false_imp_iff, implies_true, and_true]
    and_intros <;> rfl
  exact hall row h

/-- A value that fits a row's width is the operand of what the row builds from it (R76, R82). -/
theorem operandValue_build_of_fits {row : OpcodeRow} (h : row ∈ opcodeTable) {value : Option Nat}
    (hfits : operandFits row.width value = true) : (row.build (value.getD 0)).operandValue = value := by
  rw [(opcode_operandValue_build h _).2, Nat.mod_eq_of_lt (getD_lt_of_operandFits hfits)]
  cases value with
  | none => exact if_pos (operandFits_none_iff.1 hfits)
  | some v => exact if_neg (operandFits_some_iff.1 hfits).1

/-- What a row builds from a value below `2^(8w)` is encoded as the row's opcode and the value's bytes (R70, R71). -/
theorem encode_build {row : OpcodeRow} (h : row ∈ opcodeTable) {v : Nat} (hv : v < 2 ^ (8 * row.width)) :
    encode (row.build v) = row.opcode :: leBytes row.width v := by
  obtain ⟨hop, hoperand⟩ := opcode_operandValue_build h v
  have hval : (row.build v).operandValue.getD 0 = v := by
    rw [hoperand, Nat.mod_eq_of_lt hv]
    split
    · next hw =>
      rw [hw] at hv
      exact (Nat.lt_one_iff.1 hv).symm
    · rfl
  rw [encode, hop, operandWidth_build h, hval]

/-! ### The two round trips -/

/-- A defined opcode and its operand bytes decode to what the row builds from them, whatever follows. -/
theorem decode_row {b : Byte} {row : OpcodeRow} (hrow : findOpcode b = some row) {bs : List Byte}
    (hlen : bs.length = row.width) (rest : List Byte) :
    decode (b :: (bs ++ rest)) = .ok (row.build (leNat bs), rest) := by
  simp [decode, hrow, ← hlen]

/-- Settles O2: the row of the instruction's opcode builds it again from its operand, which its operand bytes hold. -/
theorem decodeOfEncode : Obligations.DecodeOfEncode := by
  intro i rest
  obtain ⟨row, hrow, hw, hbuild⟩ := findOpcode_opcode i
  have hlt : i.operandValue.getD 0 < 2 ^ (8 * i.operandWidth) := getD_lt_of_operandFits (wellFormed_all i)
  have hdec := decode_row hrow ((leBytes_length i.operandWidth (i.operandValue.getD 0)).trans hw.symm) rest
  rwa [leNat_leBytes, Nat.mod_eq_of_lt hlt, hbuild] at hdec

/-- Settles O3: the row found builds an instruction of its own opcode, and operand bytes are those of their value. -/
theorem encodeOfDecode : Obligations.EncodeOfDecode := by
  intro bytes i rest h
  obtain ⟨b, bs, row, rfl, hrow, hw, rfl, rfl⟩ := decode_ok h
  obtain ⟨hmem, hop⟩ := findOpcode_some hrow
  have hlen : (bs.take row.width).length = row.width := List.length_take_of_le hw
  have hlt := leNat_lt (bs.take row.width)
  have hbytes := leBytes_leNat (bs.take row.width)
  rw [hlen] at hlt hbytes
  rw [encode_build hmem hlt, hop, hbytes, List.cons_append, List.take_append_drop]

/-! ### Illegal opcodes -/

/-- The opcode map's opcodes are 0x01 to 0x2A, in order (R77). -/
theorem opcodeTable_opcodes : opcodeTable.map (·.opcode.toNat) = List.range' 1 42 := rfl

/-- A byte has no row exactly when it is 0x00 or at least 0x2B (R79). -/
theorem findOpcode_eq_none_iff (b : Byte) : findOpcode b = none ↔ b = 0x00 ∨ 0x2B ≤ b.toNat := by
  have hmem : (∃ row ∈ opcodeTable, row.opcode.toNat = b.toNat) ↔ 1 ≤ b.toNat ∧ b.toNat < 1 + 42 := by
    rw [← List.mem_map (f := fun row : OpcodeRow => row.opcode.toNat), opcodeTable_opcodes, List.mem_range'_1]
  have hnone : findOpcode b = none ↔ ¬ ∃ row ∈ opcodeTable, row.opcode.toNat = b.toNat := by
    simp [findOpcode, BitVec.toNat_inj]
  have hzero : b = 0x00 ↔ b.toNat = 0 := BitVec.toNat_inj.symm
  rw [hnone, hmem, hzero]
  omega

/-- Bytes are refused as unknown exactly when their first byte has no row, whatever follows it (R78). -/
theorem decode_unknown_iff (b : Byte) (rest : List Byte) :
    decode (b :: rest) = .error .unknownInstruction ↔ findOpcode b = none := by
  cases h : findOpcode b with
  | none => simp [decode, h]
  | some row => by_cases hw : row.width ≤ rest.length <;> simp [decode, h, hw]

/-- The bytes from `pc` on begin with the byte at `pc`. -/
theorem fetchBytes_eq_cons {s : State} {b : Byte} (h : s.bc[s.pc.toNat]? = some b) :
    s.fetchBytes = b :: s.bc.drop (s.pc.toNat + 1) := by
  obtain ⟨hlt, hb⟩ := List.getElem?_eq_some_iff.1 h
  rw [State.fetchBytes, List.drop_eq_getElem_cons hlt, hb]

/-- About to run an instruction, a step at bytes that do not decode ends the call with their error (R92, R93). -/
theorem step_of_decode_error {s : State} (hat : AtInstruction s) {e : DecodeError}
    (h : decode s.fetchBytes = .error e) : step s = .next (aborted s.sampleStop (decodeErrorKind e)) := by
  obtain ⟨hr, hpc, hstop⟩ := hat
  rw [step_running s hr]
  rcases runCall_cases s with ⟨heq, _⟩ | ⟨hgt, _⟩ | ⟨_, hc, hs, _⟩ | ⟨_, _, ⟨e', he, hs⟩ | ⟨i, rest, hd, _⟩⟩
  · omega
  · omega
  · simp [hc, hs] at hstop
  · cases h.symm.trans he
    exact hs
  · cases h.symm.trans hd

/-- The illegal ones among the byte values, written as numbers (R79). -/
theorem findOpcode_isNone_ofNat {n : Nat} (h : n ∈ List.range 256) :
    (findOpcode (BitVec.ofNat 8 n)).isNone = decide (n = 0 ∨ 0x2B ≤ n) := by
  have htoNat : (BitVec.ofNat 8 n).toNat = n := Nat.mod_eq_of_lt (List.mem_range.1 h)
  have hzero : BitVec.ofNat 8 n = 0x00 ↔ n = 0 := by rw [← BitVec.toNat_inj, htoNat]; rfl
  rw [Bool.eq_iff_iff, Option.isNone_iff_eq_none, findOpcode_eq_none_iff, hzero, htoNat, decide_eq_true_iff]

/-- Settles O4: the bytes without a row are those; 42 and 214 are counted; a step at one raises the decoder's error. -/
theorem illegalOpcodesAreUnknown : Obligations.IllegalOpcodesAreUnknown := by
  have hunknown : ∀ (b : Byte) (rest : List Byte),
      decode (b :: rest) = .error .unknownInstruction ↔ b = 0x00 ∨ 0x2B ≤ b.toNat := fun b rest =>
    (decode_unknown_iff b rest).trans (findOpcode_eq_none_iff b)
  have hsome : ∀ n ∈ List.range 256, (findOpcode (BitVec.ofNat 8 n)).isSome = !decide (n = 0 ∨ 0x2B ≤ n) := by
    intro n hn
    rw [← Option.not_isNone, findOpcode_isNone_ofNat hn]
  refine ⟨hunknown, ?_, ?_, fun s b hat hb hbad => ?_⟩
  · rw [List.filter_congr hsome]; rfl
  · rw [List.filter_congr fun _ hn => findOpcode_isNone_ofNat hn]; rfl
  · have hdec : decode s.fetchBytes = .error .unknownInstruction := by
      rw [fetchBytes_eq_cons hb]
      exact (hunknown b _).2 hbad
    exact step_of_decode_error hat hdec

/-! ### The assembler -/

/-- The assembler gives what the opcode's row builds from an operand that fits its width, and nothing else (R82). -/
theorem assemble_eq_some_iff {opcode : Byte} {value : Option Nat} {i : Instr} :
    assemble opcode value = some i ↔
      ∃ row, findOpcode opcode = some row ∧ operandFits row.width value = true ∧ row.build (value.getD 0) = i := by
  cases h : findOpcode opcode <;> simp [assemble, h]

/-- Settles O5: by what the opcode's row builds, and by the width its operand has to fit. -/
theorem assemblerRefusesMisfits : Obligations.AssemblerRefusesMisfits := by
  intro opcode value
  refine ⟨fun i h => ?_, fun row hrow => ⟨fun hfits => ?_, fun v hv hwide => ?_⟩⟩
  · obtain ⟨row, hrow, hfits, rfl⟩ := assemble_eq_some_iff.1 h
    obtain ⟨hmem, hop⟩ := findOpcode_some hrow
    exact ⟨(opcode_operandValue_build hmem _).1.trans hop, operandValue_build_of_fits hmem hfits⟩
  · exact ⟨_, assemble_eq_some_iff.2 ⟨row, hrow, hfits, rfl⟩⟩
  · have hmisfit : ¬ operandFits row.width value = true := fun hfits =>
      absurd (operandFits_some_iff.1 (hv ▸ hfits)).2 (Nat.not_lt.2 hwide)
    simp [assemble, hrow, hmisfit]

/-! ### Words of the spec -/

/-- Settles O1: the decoder run on the eleven words. -/
theorem specWordsDecode : Obligations.SpecWordsDecode := by
  and_intros <;> decide

end Sys2Proof.Laws

/-! ## The step of a call: halt, stop, operand check, aborts, and its start and end (40_dispatch.md)

Proofs of O9, O10, O11, O12, O13, O15, O47 and O53. A step of a running call has one equation for each case of R90 to R93;
how it can end the call is said once (`step_running_of_done`), and so is what a step of a wait can be
(`step_waitHost_eq_next`). -/

namespace Sys2Proof.Laws

open Sys2Proof.Machine Sys2Proof.Safety Sys2Proof.Claims

/-! ### A step of a running call, case by case -/

/-- At `pc = BC_LEN` a running call halts (R90). -/
theorem step_atEnd {s : State} (hr : s.mode = .running) (h : s.pc.toNat = s.bc.length) : step s = .next s.halt := by
  rw [step_running s hr]
  exact if_pos h

/-- A running state with `pc` above BC_LEN has no meaning (I16). -/
theorem step_beyondEnd {s : State} (hr : s.mode = .running) (h : s.bc.length < s.pc.toNat) :
    step s = .refused .pcBeyondBytecode := by
  rw [step_running s hr]
  exact (if_neg (by omega)).trans (if_pos h)

/-- A stop flag sampled as 1 ends the call before the opcode is read (R91). -/
theorem step_of_samplesStop {s : State} (h : SamplesStop s) :
    step s = .next (aborted s.sampleStop .cpuTimeExhausted) := by
  obtain ⟨hr, hpc, hc, hs⟩ := h
  rw [step_running s hr]
  exact (if_neg (by omega)).trans ((if_neg (by omega)).trans (if_pos ⟨hc, hs⟩))

/-- About to run an instruction, a step at bytes that decode executes what they decode to (R95). -/
theorem step_of_decode_ok {s : State} (hat : AtInstruction s) {i : Instr} {rest : List Byte}
    (h : decode s.fetchBytes = .ok (i, rest)) : step s = exec i s.sampleStop := by
  obtain ⟨hr, hpc, hstop⟩ := hat
  rw [step_running s hr]
  rcases runCall_cases s with ⟨heq, _⟩ | ⟨hgt, _⟩ | ⟨_, hc, hs, _⟩ | ⟨_, _, ⟨e, he, _⟩ | ⟨j, rest', hj, hs⟩⟩
  · omega
  · omega
  · simp [hc, hs] at hstop
  · cases h.symm.trans he
  · cases h.symm.trans hj
    exact hs

/-- Settles O9. -/
theorem stepRunsDecoded : Obligations.StepRunsDecoded := fun s _ _ hat h =>
  ⟨step_of_decode_ok hat h, sampleStop_eq s, sampleStop_noWatcher s⟩

/-- Settles O10: an instruction's bytes decode to it (O2). -/
theorem encodedInstructionRuns : Obligations.EncodedInstructionRuns := by
  intro s i rest hat h
  have hdec : decode s.fetchBytes = .ok (i, rest) := (congrArg decode h).trans (decodeOfEncode i rest)
  exact step_of_decode_ok hat hdec

/-! ### How a step ends a call -/

/-- An instruction ends a running call by an error and in no other way (R97). -/
theorem ExecShape.eq_raise_of_done {i : Instr} {s t : State} (h : ExecShape i s t) (hs : s.mode = .running) {r : Result}
    (ht : t.mode = .done r) : ∃ k, t = s.raise k := by
  cases h with
  | result | store | latch | fallThrough | jump => exact nomatch hs.symm.trans ht
  | wait => cases ht
  | badLocation | badSyscall => exact ⟨_, rfl⟩

/-- A step that ends a running call halts it at `pc = BC_LEN`, or raises an error after the stop sample and writes nothing
(R90, R97). -/
theorem step_running_of_done {s t : State} (hr : s.mode = .running) (h : step s = .next t) {r : Result}
    (ht : t.mode = .done r) :
    (s.pc.toNat = s.bc.length ∧ t = s.halt) ∨ ∃ k, t = s.sampleStop.raise k := by
  rw [step_running s hr] at h
  rcases runCall_cases s with ⟨hpc, hs⟩ | ⟨_, hs⟩ | ⟨_, _, _, hs⟩ | ⟨_, _, ⟨e, _, hs⟩ | ⟨i, _, _, hs⟩⟩ <;> rw [hs] at h
  · cases h; exact .inl ⟨hpc, rfl⟩
  · cases h
  · cases h; exact .inr ⟨_, rfl⟩
  · cases h; exact .inr ⟨_, rfl⟩
  · exact .inr ((execShape_of_next h).eq_raise_of_done (by simpa using hr) ht)

/-- Settles O11: success is the halt's result alone. -/
theorem haltsExactlyAtEnd : Obligations.HaltsExactlyAtEnd := by
  refine fun s hr => ⟨step_atEnd hr, fun t h ht => ?_⟩
  rcases step_running_of_done hr h ht with ⟨hpc, _⟩ | ⟨k, rfl⟩
  · exact hpc
  · cases ht

/-- A next state of a syscall wait is what the answer of the callback registered under its id makes of it (R171). -/
theorem step_waitHost_eq_next {s t : State} {id : Word} (hw : s.mode = .waitHost id) (h : step s = .next t) :
    ∃ cb, sysLookup s.sys id = some cb ∧
      State.respond { s with env := (s.env.nextAnswer cb s.view).2 } (s.env.nextAnswer cb s.view).1 = .next t := by
  rw [step_waitHost s id hw] at h
  cases hl : sysLookup s.sys id with
  | none => simp [State.waitStep, hl] at h
  | some cb => exact ⟨cb, rfl, (waitStep_registered s id cb hl).symm.trans h⟩

/-- Settles O15: a running call by how its step can end it; a wait by its callback's answer, of which only `Err(E)` ends
the call, and which writes the same whatever the inputs to come. -/
theorem abortsChangeNothing : Obligations.AbortsChangeNothing := by
  refine ⟨fun s t k hr h ht => ?_, fun s t id k hw h ht => ?_⟩
  · rcases step_running_of_done hr h ht with ⟨_, rfl⟩ | ⟨k', rfl⟩
    · cases ht
    · cases ht; rfl
  · obtain ⟨cb, hcb, hresp⟩ := step_waitHost_eq_next hw h
    rcases respond_cases { s with env := (s.env.nextAnswer cb s.view).2 } (s.env.nextAnswer cb s.view).1 with
      ⟨_, hs⟩ | ⟨ws, _, hs⟩ | ⟨e, ws, ha, hs⟩ | ⟨_, hs⟩ <;> rw [hs] at hresp <;> cases hresp
    · exact nomatch hw.symm.trans ht
    · cases ht
    · cases ht
      have hpc : (s.applyWrites ws).pc = s.pc := by rw [applyWrites_eq]
      rw [applyWrites_env]
      exact ⟨cb, e, ws, hcb, ha, rfl, rfl, rfl, rfl, hpc⟩

/-! ### The stop flag -/

/-- An instruction does not see the stop flag (R37). -/
theorem exec_withStop {i : Instr} {s t : State} (h : exec i s = .next t) (b : Bool) :
    exec i { s with stop := b } = .next { t with stop := b } := by
  refine (deadlineIsInvisible i s t b s.maxCpuTime s.env h).trans ?_
  rw [(execShape_of_next h).frame]

/-- Settles O12: without a deadline, by the place of `pc` and by what the bytes there decode to. -/
theorem stopEndsCall : Obligations.StopEndsCall := by
  refine ⟨fun s => step_of_samplesStop, fun s => step_atEnd, fun s b hr hc => ?_⟩
  rcases Nat.lt_trichotomy s.pc.toNat s.bc.length with hlt | heq | hgt
  · have hat : AtInstruction s := ⟨hr, hlt, .inl hc⟩
    have hat' : AtInstruction { s with stop := b } := ⟨hr, hlt, .inl hc⟩
    cases hd : decode s.fetchBytes with
    | error e =>
      rw [step_of_decode_error hat hd, step_of_decode_error hat' hd, sampleStop_noWatcher s hc,
        sampleStop_noWatcher { s with stop := b } hc]
      rfl
    | ok p =>
      obtain ⟨t, ht, _⟩ := exec_shape p.1 s
      rw [step_of_decode_ok hat hd, step_of_decode_ok hat' hd, sampleStop_noWatcher s hc,
        sampleStop_noWatcher { s with stop := b } hc, ht]
      exact exec_withStop ht b
  · rw [step_atEnd hr heq]
    exact step_atEnd hr heq
  · rw [step_beyondEnd hr hgt]
    exact step_beyondEnd hr hgt

/-! ### The operand check -/

/-- A row of the opcode map is the one found for its opcode: no two rows have the same (R77). -/
theorem findOpcode_of_mem {row : OpcodeRow} (h : row ∈ opcodeTable) : findOpcode row.opcode = some row := by
  have hall : ∀ row ∈ opcodeTable, findOpcode row.opcode = some row := by
    simp only [opcodeTable, opcodeLoads, opcodeMovesAndStores, opcodeAlu, opcodeControl, List.forall_mem_append,
      List.forall_mem_cons, List.not_mem_nil, false_imp_iff, implies_true, and_true]
    and_intros <;> rfl
  exact hall row h

/-- Bytes that begin with a row's opcode decode by its width: to what the row builds, or not at all (R93, R94). -/
theorem decode_of_row {row : OpcodeRow} (h : row ∈ opcodeTable) (bs : List Byte) :
    decode (row.opcode :: bs) =
      if row.width ≤ bs.length then .ok (row.build (leNat (bs.take row.width)), bs.drop row.width)
      else .error .invalidInstructionArgument := by
  simp only [decode, findOpcode_of_mem h]

/-- A row's opcode with fewer operand bytes behind it than the row's width ends the call (R93). -/
theorem truncationAborts_of_row {row : OpcodeRow} (h : row ∈ opcodeTable) : TruncationAborts row.opcode row.width := by
  intro s hat hb hshort
  have hw : ¬ row.width ≤ (s.bc.drop (s.pc.toNat + 1)).length := by rw [List.length_drop]; omega
  have hdec := decode_of_row h (s.bc.drop (s.pc.toNat + 1))
  rw [if_neg hw, ← fetchBytes_eq_cons hb] at hdec
  exact step_of_decode_error hat hdec

/-- A row's opcode with its operand bytes behind it runs an instruction of that row (R93 to R95). -/
theorem step_of_row {s : State} (hat : AtInstruction s) {row : OpcodeRow} (h : row ∈ opcodeTable)
    (hb : s.bc[s.pc.toNat]? = some row.opcode) (hlen : s.pc.toNat + 1 + row.width ≤ s.bc.length) :
    ∃ v, step s = exec (row.build v) s.sampleStop := by
  have hw : row.width ≤ (s.bc.drop (s.pc.toNat + 1)).length := by rw [List.length_drop]; omega
  have hdec := decode_of_row h (s.bc.drop (s.pc.toNat + 1))
  rw [if_pos hw, ← fetchBytes_eq_cons hb] at hdec
  exact ⟨_, step_of_decode_ok hat hdec⟩

/-- Settles O13: with no operand byte to check, `pc` inside the bytecode is enough. -/
theorem operandCheckIsExact : Obligations.OperandCheckIsExact := by
  intro s row hat hmem hb
  refine ⟨truncationAborts_of_row hmem s hat hb, fun hlen => ?_, fun hw => ?_⟩
  · obtain ⟨v, hs⟩ := step_of_row hat hmem hb hlen
    exact ⟨row.build v, (opcode_operandValue_build hmem v).1, hs⟩
  · have hpc := hat.2.1
    omega

/-! ### The start and the end of a call -/

/-- Settles O47: the command the host gives at this step is the execute. -/
theorem executeStartsCall : Obligations.ExecuteStartsCall := by
  intro s b hb hlen hc
  rw [step_betweenCalls hb, State.hostStep, hc]
  exact if_pos hlen

/-- A step of a call goes on with the call or ends it (R95, R172). -/
theorem step_inCall_or_done {s t : State} (hc : InCall s) (h : step s = .next t) :
    InCall t ∨ ∃ r, t.mode = .done r := by
  rcases hc with hr | ⟨id, hw⟩
  · rcases Nat.lt_or_ge s.bc.length s.pc.toNat with hgt | hle
    · cases h.symm.trans (step_beyondEnd hr hgt)
    · obtain ⟨t', ht', _, hmode⟩ := runningCallNeverStuck s hr hle
      cases h.symm.trans ht'
      exact or_assoc.2 hmode
  · obtain ⟨cb, _, hresp⟩ := step_waitHost_eq_next hw h
    rcases respond_cases { s with env := (s.env.nextAnswer cb s.view).2 } (s.env.nextAnswer cb s.view).1 with
      ⟨_, hs⟩ | ⟨ws, _, hs⟩ | ⟨e, ws, _, hs⟩ | ⟨_, hs⟩ <;> rw [hs] at hresp <;> cases hresp
    · exact .inl (.inr ⟨id, hw⟩)
    · exact .inl (.inl rfl)
    · exact .inr ⟨_, rfl⟩

/-- A run whose call never ends stays in the call. -/
theorem inCall_of_never_done {r : Nat → State} (hrun : CallRun r) {k : Nat} (hk : InCall (r k))
    (hnever : ∀ n, k ≤ n → ¬ ∃ res, (r n).mode = .done res) (n : Nat) (hn : k ≤ n) : InCall (r n) := by
  induction n, hn using Nat.le_induction with
  | base => exact hk
  | succ n hn ih => exact (step_inCall_or_done ih (hrun n ih)).resolve_right (hnever (n + 1) (by omega))

/-- Settles O53: a call that never ended would run again and again, so by the fairness assumption a step would sample the
stop flag as 1, and the state after that step has ended. -/
theorem deadlineEndsEveryCall : Obligations.DeadlineEndsEveryCall := by
  intro r hrun hfair k hk hc hwaits
  by_contra hends
  have hin : ∀ n, k ≤ n → InCall (r n) :=
    inCall_of_never_done hrun (.inl hk) fun n hn hdone => hends ⟨n, hn, hdone⟩
  have hruns : ∀ n, k ≤ n → ∃ m, n ≤ m ∧ (r m).mode = .running := by
    intro n hn
    obtain ⟨m, hm, hnowait⟩ := hwaits n hn (hin n hn)
    exact ⟨m, hm, (hin m (hn.trans hm)).resolve_right fun ⟨id, hw⟩ => hnowait id hw⟩
  obtain ⟨m, hm, hstop⟩ := hfair k hc hin hruns
  have hnext : r (m + 1) = aborted (r m).sampleStop .cpuTimeExhausted := by
    have hstep := (hrun m (hin m hm)).symm.trans (step_of_samplesStop hstop)
    exact Host.Outcome.next.inj hstep
  exact hends ⟨m + 1, by omega, .error .cpuTimeExhausted, by rw [hnext]; rfl⟩

end Sys2Proof.Laws

/-! ## The immediate loads (41_immediate_loads.md)

Proof of O18. An operand's bytes in the encoding are the 8-bit slices of its value, so the formats of R71 decode by O2;
the operand check of an instruction is that of its row of the opcode map; the effect is that of `State.result` on R1. -/

namespace Sys2Proof.Laws

open Sys2Proof.Machine Sys2Proof.Safety Sys2Proof.Claims

/-! ### The format and the operand check of any instruction -/

/-- The low `n` bytes of a bit vector's value are its 8-bit slices, least significant first (R11). -/
theorem leBytes_toNat_eq_slices {m : Nat} (v : BitVec m) (n : Nat) :
    leBytes n v.toNat = (List.range n).map fun k => v.extractLsb' (8 * k) 8 := by
  refine List.ext_getElem (by simp) fun k hk _ => ?_
  rw [leBytes_getElem, List.getElem_map, List.getElem_range, BitVec.extractLsb', Nat.shiftRight_eq_div_pow, Nat.pow_mul]

/-- An opcode byte and the slices of the operand, least significant first, decode to the instruction (R70, R71). -/
theorem decode_opcode_slices {i : Instr} {m : Nat} {v : BitVec m} (hv : i.operandValue = some v.toNat)
    (rest : List Byte) :
    decode (i.opcode :: ((List.range i.operandWidth).map (fun k => v.extractLsb' (8 * k) 8) ++ rest)) =
      .ok (i, rest) := by
  have hdec := decodeOfEncode i rest
  rwa [encode, hv, Option.getD_some, leBytes_toNat_eq_slices, List.cons_append] at hdec

/-- An instruction's opcode with too few operand bytes behind it ends the call (R93). -/
theorem truncationAborts_of_instr (i : Instr) : TruncationAborts i.opcode i.operandWidth := by
  obtain ⟨row, hrow, hw, _⟩ := findOpcode_opcode i
  obtain ⟨hmem, hop⟩ := findOpcode_some hrow
  rw [← hop, ← hw]
  exact truncationAborts_of_row hmem

/-! ### The effect of a load of R1 -/

/-- A result in R1 clears R4, passes the operand bytes and changes nothing else (R33, R96). -/
theorem result_r1 (s : State) (v : Word) (w : Nat) :
    s.result .r1 v w =
      .next { s with regs := { s.regs with r1 := v, r4 := 0 }, pc := s.pc + BitVec.ofNat 64 (1 + w) } := rfl

/-- An instruction that puts its zero-extended operand of `w` bytes into R1 is an immediate load (R110 to R113). -/
theorem immediateLoad_of_exec {n w : Nat} {opcode : Byte} {build : BitVec n → Instr}
    (hcheck : TruncationAborts opcode w) (hexec : ∀ imm s, exec (build imm) s = s.result .r1 (zext imm) w) :
    ImmediateLoad opcode w (BitVec.ofNat 64 (1 + w)) build := by
  refine ⟨hcheck, fun imm s => ?_⟩
  have hzext : zext imm = BitVec.ofNat 64 imm.toNat := (BitVec.ofNat_toNat 64 imm).symm
  rw [hexec, result_r1, hzext]

/-- Settles O18: for each load the format by `decode_opcode_slices`, the rest by `immediateLoad_of_exec`. -/
theorem immediateLoads : Obligations.ImmediateLoads := by
  refine ⟨⟨fun imm rest => ?_, ?_⟩, ⟨fun imm rest => ?_, ?_⟩, ⟨fun imm rest => ?_, ?_⟩, fun imm rest => ?_, ?_⟩
  · have hdec : decode (0x01 :: imm.extractLsb' 0 8 :: rest) = .ok (.loadU8 imm, rest) :=
      decode_opcode_slices (i := .loadU8 imm) rfl rest
    rwa [BitVec.extractLsb'_eq_self] at hdec
  · exact immediateLoad_of_exec (truncationAborts_of_instr (.loadU8 0)) fun _ _ => rfl
  · exact decode_opcode_slices (i := .loadU16 imm) rfl rest
  · exact immediateLoad_of_exec (truncationAborts_of_instr (.loadU16 0)) fun _ _ => rfl
  · exact decode_opcode_slices (i := .loadU32 imm) rfl rest
  · exact immediateLoad_of_exec (truncationAborts_of_instr (.loadU32 0)) fun _ _ => rfl
  · exact decode_opcode_slices (i := .loadU64 imm) rfl rest
  · exact immediateLoad_of_exec (truncationAborts_of_instr (.loadU64 0)) fun _ _ => rfl

end Sys2Proof.Laws

/-! ## The memory loads (42_memory_loads.md)

Proof of O19. The format and the operand check are those of any instruction with a 64-bit operand; the effect is that of
`State.loadR1`, inside memory and outside it. -/

namespace Sys2Proof.Laws

open Sys2Proof.Machine Sys2Proof.Safety Sys2Proof.Claims

/-! ### Instructions of format W64 -/

/-- These instructions have this opcode and, as their operand, the eight bytes of a word (format W64, R71). -/
def HasFormatW64 (opcode : Byte) (build : Word → Instr) : Prop :=
  ∀ v, (build v).opcode = opcode ∧ (build v).operandWidth = 8 ∧ (build v).operandValue = some v.toNat

/-- In format W64 the opcode and the operand's bytes decode to the instruction. -/
theorem HasFormatW64.encodedW64 {opcode : Byte} {build : Word → Instr} (h : HasFormatW64 opcode build) :
    EncodedW64 opcode build := by
  intro v rest
  obtain ⟨hop, hwidth, hval⟩ := h v
  have hdec := decode_opcode_slices hval rest
  rw [hop, hwidth] at hdec
  exact hdec

/-- In format W64 the operand check asks for eight bytes (R93). -/
theorem HasFormatW64.truncationAborts {opcode : Byte} {build : Word → Instr} (h : HasFormatW64 opcode build) :
    TruncationAborts opcode 8 := by
  obtain ⟨hop, hwidth, _⟩ := h 0
  rw [← hop, ← hwidth]
  exact truncationAborts_of_instr (build 0)

/-! ### The effect of a memory load -/

/-- An access that ends within memory is in bounds, in exact arithmetic (R53). -/
theorem inBounds_eq_true {s : State} {a : Word} {n : Nat} (h : a.toNat + n ≤ s.memLen) : s.inBounds a n = true :=
  decide_eq_true h

/-- Inside memory a load puts the little-endian sum of the bytes there into R1 (R14, R53). -/
theorem loadR1_inside {s : State} {a : Word} {n : Nat} (h : a.toNat + n ≤ s.memLen) :
    s.loadR1 n a =
      s.result .r1 (BitVec.ofNat 64 (littleEndian n fun k => (readByte s.mem (a.toNat + k)).toNat)) 8 := by
  rw [← memRead_eq_littleEndian]
  exact ((loadR1_cases s n a).resolve_right (by simp [inBounds_eq_true h])).2

/-- An instruction of format W64 that loads `n` bytes from its operand into R1 is a memory load (R115 to R118). -/
theorem memoryLoad_of_exec {opcode : Byte} {n : Nat} {build : Word → Instr} (hformat : HasFormatW64 opcode build)
    (hexec : ∀ a s, exec (build a) s = s.loadR1 n a) : MemoryLoad opcode n build := by
  refine ⟨hformat.encodedW64, hformat.truncationAborts, fun a s => ⟨fun hin => ?_, fun hout => ?_⟩⟩
  · rw [hexec, loadR1_inside hin]
    exact result_r1 s _ 8
  · rw [hexec, loadR1_outside hout]

/-- Settles O19: each of the four has format W64 and executes as `State.loadR1` of its own number of bytes. -/
theorem memoryLoads : Obligations.MemoryLoads :=
  ⟨memoryLoad_of_exec (fun _ => ⟨rfl, rfl, rfl⟩) fun _ _ => rfl,
    memoryLoad_of_exec (fun _ => ⟨rfl, rfl, rfl⟩) fun _ _ => rfl,
    memoryLoad_of_exec (fun _ => ⟨rfl, rfl, rfl⟩) fun _ _ => rfl,
    memoryLoad_of_exec (fun _ => ⟨rfl, rfl, rfl⟩) fun _ _ => rfl⟩

end Sys2Proof.Laws

/-! ## The register moves (43_register_moves.md)

Proof of O20. An instruction without an operand is its opcode byte alone (format N); the effect is that of `State.move`
from one register to another. -/

namespace Sys2Proof.Laws

open Sys2Proof.Machine Sys2Proof.Safety Sys2Proof.Claims

/-- An instruction with no operand bytes has format N: its opcode alone decodes to it, whatever follows (R71). -/
theorem encodedN_of_operandWidth_zero {i : Instr} (h : i.operandWidth = 0) : EncodedN i.opcode i := by
  intro rest
  have hdec := decodeOfEncode i rest
  rwa [encode, h, leBytes_zero] at hdec

/-- A move copies the source's old value to the destination, then clears R4, passes the opcode and changes nothing else
(R33, R96, R120 to R128). -/
theorem move_eq (s : State) (src dst : Reg) :
    s.move src dst =
      .next { s with regs := { regSet s.regs dst (regGet s.regs src) with r4 := 0 }, pc := s.pc + 1 } := rfl

/-- An instruction without operand bytes that executes as a move is a register move between these two registers. -/
theorem registerMove_of_exec (i : Instr) (src dst : Reg) (hwidth : i.operandWidth = 0)
    (hexec : ∀ s, exec i s = s.move src dst) :
    RegisterMove i.opcode i fun x => regSet x dst (regGet x src) :=
  ⟨encodedN_of_operandWidth_zero hwidth, fun s => (hexec s).trans (move_eq s src dst)⟩

/-- Settles O20: each of the nine has no operand and executes as `State.move` of its own two registers. -/
theorem registerMoves : Obligations.RegisterMoves :=
  ⟨registerMove_of_exec .moveR1R2 .r1 .r2 rfl fun _ => rfl,
    registerMove_of_exec .moveR1R3 .r1 .r3 rfl fun _ => rfl,
    registerMove_of_exec .moveR2R1 .r2 .r1 rfl fun _ => rfl,
    registerMove_of_exec .moveR2R3 .r2 .r3 rfl fun _ => rfl,
    registerMove_of_exec .moveR3R1 .r3 .r1 rfl fun _ => rfl,
    registerMove_of_exec .moveR3R2 .r3 .r2 rfl fun _ => rfl,
    registerMove_of_exec .moveR4R1 .r4 .r1 rfl fun _ => rfl,
    registerMove_of_exec .moveR4R2 .r4 .r2 rfl fun _ => rfl,
    registerMove_of_exec .moveR4R3 .r4 .r3 rfl fun _ => rfl⟩

end Sys2Proof.Laws

/-! ## The memory stores (44_memory_stores.md)

Proof of O21. The format and the operand check are those of any instruction with a 64-bit operand; the effect is that of
`State.dumpR1`. Its new memory holds the low bytes of R1 inside the store and the old bytes outside it. -/

namespace Sys2Proof.Laws

open Sys2Proof.Machine Sys2Proof.Safety Sys2Proof.Claims

/-! ### The bytes of a store -/

/-- Inside a store, byte `k` is bits `8k` to `8k + 7` of the stored value (R11, R50). -/
theorem readByte_memWrite_byteOf {m : List Host.Cell} (hm : Memory.wf m = true) (a : Nat) {n k : Nat} (v : Word)
    (hk : k < n) : readByte (memWrite m a n v) (a + k) = byteOf v k := by
  rw [readByte_memWrite_inside hm a v hk, byteOf, BitVec.extractLsb', Nat.shiftRight_eq_div_pow, Nat.pow_mul]

/-- Outside a store every byte is as before (R134). -/
theorem readByte_memWrite_outside (m : List Host.Cell) (a n : Nat) (v : Word) {x : Nat} (h : x < a ∨ a + n ≤ x) :
    readByte (memWrite m a n v) x = readByte m x :=
  readByte_writeBytes_outside m a _ x (by rwa [leBytes_length])

/-! ### The effect of a memory store -/

/-- Inside memory a store writes R1's low bytes there, clears R4, passes the operand bytes and changes nothing else
(R53, R33, R96). -/
theorem dumpR1_inside {s : State} {a : Word} {n : Nat} (h : a.toNat + n ≤ s.memLen) :
    s.dumpR1 n a =
      .next { s with mem := memWrite s.mem a.toNat n s.regs.r1, regs := { s.regs with r4 := 0 }, pc := s.pc + 9 } :=
  ((dumpR1_cases s n a).resolve_right (by simp [inBounds_eq_true h])).2

/-- An instruction of format W64 that stores the low `n` bytes of R1 at its operand is a memory store (R130 to R133). -/
theorem memoryStore_of_exec {opcode : Byte} {n : Nat} {build : Word → Instr} (hformat : HasFormatW64 opcode build)
    (hexec : ∀ a s, exec (build a) s = s.dumpR1 n a) : MemoryStore opcode n build := by
  refine ⟨hformat.encodedW64, hformat.truncationAborts, fun a s => ⟨fun hin => ?_, fun hout => ?_⟩⟩
  · refine ⟨memWrite s.mem a.toNat n s.regs.r1, (hexec a s).trans (dumpR1_inside hin), ?_, ?_⟩
    · exact fun hwf _ hk => readByte_memWrite_byteOf hwf a.toNat s.regs.r1 hk
    · exact fun _ hx => readByte_memWrite_outside s.mem a.toNat n s.regs.r1 hx
  · exact (hexec a s).trans (dumpR1_outside hout)

/-- Settles O21: each of the four has format W64 and executes as `State.dumpR1` of its own number of bytes. -/
theorem memoryStores : Obligations.MemoryStores :=
  ⟨memoryStore_of_exec (fun _ => ⟨rfl, rfl, rfl⟩) fun _ _ => rfl,
    memoryStore_of_exec (fun _ => ⟨rfl, rfl, rfl⟩) fun _ _ => rfl,
    memoryStore_of_exec (fun _ => ⟨rfl, rfl, rfl⟩) fun _ _ => rfl,
    memoryStore_of_exec (fun _ => ⟨rfl, rfl, rfl⟩) fun _ _ => rfl⟩

end Sys2Proof.Laws

/-! ## Arithmetic on R1 and R2 (45_arithmetic.md)

Proofs of O22, O23, O24 and O26. `u64` takes integer sums, differences and products to those of 64-bit words and undoes
both readings of a word, so the signed and the unsigned add (subtract) are one operation on words, and the divisions and
remainders are the library's `/`, `%`, `sdiv` and `srem`, whose laws are those of R144. -/

namespace Sys2Proof.Laws

open Sys2Proof.Machine Sys2Proof.Safety Sys2Proof.Claims

/-! ### Integers modulo 2^64 (R10) -/

@[simp] theorem u64_natCast (n : Nat) : u64 n = BitVec.ofNat 64 n := BitVec.ofInt_natCast 64 n

theorem u64_toNat (v : Word) : u64 v.toNat = v := by simp

@[simp] theorem u64_s64 (v : Word) : u64 (s64 v) = v := BitVec.ofInt_toInt

@[simp] theorem u64_add (m n : Int) : u64 (m + n) = u64 m + u64 n := BitVec.ofInt_add m n

@[simp] theorem u64_mul (m n : Int) : u64 (m * n) = u64 m * u64 n := BitVec.ofInt_mul m n

@[simp] theorem u64_sub (m n : Int) : u64 (m - n) = u64 m - u64 n :=
  eq_sub_of_add_eq (by rw [← u64_add, Int.sub_add_cancel])

/-- The truncating quotient modulo 2^64 is the signed division of words; -2^63 / -1 wraps (R141, D4). -/
theorem u64_tdiv (a b : Word) : u64 ((s64 a).tdiv (s64 b)) = a.sdiv b := by
  rw [← BitVec.toInt_inj, BitVec.toInt_sdiv]
  exact BitVec.toInt_ofInt _

/-- What the truncating quotient leaves of the dividend is the signed remainder of words (R143, D5). -/
theorem u64_sub_mul_tdiv (a b : Word) : u64 (s64 a - s64 b * (s64 a).tdiv (s64 b)) = a.srem b := by
  rw [← Int.tmod_def, s64, s64, ← BitVec.toInt_srem]
  exact u64_s64 _

/-! ### The effect of an operation on R1 and R2 -/

/-- An operation on R1 and R2 puts its result into R1, clears R4, passes the opcode and changes nothing else (R17). -/
theorem binary_eq (s : State) (f : Word → Word → Word) :
    s.binary f = .next { s with regs := { s.regs with r1 := f s.regs.r1 s.regs.r2, r4 := 0 }, pc := s.pc + 1 } :=
  result_r1 s _ 0

theorem binary_r1 {s t : State} {f : Word → Word → Word} (h : s.binary f = .next t) :
    t.regs.r1 = f s.regs.r1 s.regs.r2 := by
  obtain rfl := Host.Outcome.next.inj ((binary_eq s f).symm.trans h)
  rfl

/-- A div or mod by 0 sets R4, passes the opcode and changes nothing else (R140 to R143). -/
theorem divide_by_zero {s : State} (h : s.regs.r2 = 0) (f : Word → Word → Word) :
    s.divide f = .next { s with regs := { s.regs with r4 := 1 }, pc := s.pc + 1 } :=
  ((divide_cases s f).resolve_right fun hne => hne.1 h).2

/-- A div or mod by anything else is an operation on R1 and R2. -/
theorem divide_by_nonzero {s : State} (h : s.regs.r2 ≠ 0) (f : Word → Word → Word) : s.divide f = s.binary f :=
  ((divide_cases s f).resolve_left fun hz => h hz.1).2

theorem divide_r1 {s t : State} {f : Word → Word → Word} (h0 : s.regs.r2 ≠ 0) (h : s.divide f = .next t) :
    t.regs.r1 = f s.regs.r1 s.regs.r2 :=
  binary_r1 ((divide_by_nonzero h0 f).symm.trans h)

/-- An instruction without operand bytes that executes as an operation on R1 and R2 obeys the rule of one. -/
theorem binaryOp_of_exec (i : Instr) {f : Word → Word → Word} (hwidth : i.operandWidth = 0)
    (hexec : ∀ s, exec i s = s.binary f) : BinaryOp i.opcode i f :=
  ⟨encodedN_of_operandWidth_zero hwidth, fun s => (hexec s).trans (binary_eq s f)⟩

/-- An instruction without operand bytes that executes as a div or mod obeys the rule of one. -/
theorem divisionOp_of_exec (i : Instr) {f : Word → Word → Word} (hwidth : i.operandWidth = 0)
    (hexec : ∀ s, exec i s = s.divide f) : DivisionOp i.opcode i f := by
  refine ⟨encodedN_of_operandWidth_zero hwidth, fun s => ⟨fun hz => ?_, fun hne => ?_⟩⟩
  · exact (hexec s).trans (divide_by_zero hz f)
  · exact (hexec s).trans ((divide_by_nonzero hne f).trans (binary_eq s f))

/-! ### Each instruction as an operation on words -/

/-- A sum of readings that `u64` undoes is the sum of the words (R139). -/
theorem binary_u64_add {reading : Word → Int} (hread : ∀ v, u64 (reading v) = v) (s : State) :
    (s.binary fun a b => u64 (reading a + reading b)) = s.binary (· + ·) := by
  simp only [u64_add, hread]

/-- A difference of readings that `u64` undoes is the difference of the words (R139). -/
theorem binary_u64_sub {reading : Word → Int} (hread : ∀ v, u64 (reading v) = v) (s : State) :
    (s.binary fun a b => u64 (reading a - reading b)) = s.binary (· - ·) := by
  simp only [u64_sub, hread]

theorem exec_unsignedAdd (s : State) : exec .unsignedAdd s = s.binary (· + ·) := binary_u64_add u64_toNat s

theorem exec_signedAdd (s : State) : exec .signedAdd s = s.binary (· + ·) := binary_u64_add u64_s64 s

theorem exec_unsignedSub (s : State) : exec .unsignedSub s = s.binary (· - ·) := binary_u64_sub u64_toNat s

theorem exec_signedSub (s : State) : exec .signedSub s = s.binary (· - ·) := binary_u64_sub u64_s64 s

theorem exec_unsignedDiv (s : State) : exec .unsignedDiv s = s.divide (· / ·) :=
  congrArg s.divide (funext₂ fun _ _ => (u64_natCast _).trans BitVec.udiv_def.symm)

theorem exec_unsignedMod (s : State) : exec .unsignedMod s = s.divide (· % ·) :=
  congrArg s.divide (funext₂ fun _ _ => by rw [u64_natCast, ← Nat.mod_eq_sub_mul_div, BitVec.umod_def])

theorem exec_signedDiv (s : State) : exec .signedDiv s = s.divide BitVec.sdiv :=
  congrArg s.divide (funext₂ u64_tdiv)

theorem exec_signedMod (s : State) : exec .signedMod s = s.divide BitVec.srem :=
  congrArg s.divide (funext₂ u64_sub_mul_tdiv)

/-! ### Add and subtract -/

/-- Settles O22: each of the four has no operand and executes as `State.binary` of its own sum or difference. -/
theorem addAndSubtract : Obligations.AddAndSubtract :=
  ⟨binaryOp_of_exec .unsignedAdd rfl fun _ => rfl, binaryOp_of_exec .signedAdd rfl fun _ => rfl,
    binaryOp_of_exec .unsignedSub rfl fun _ => rfl, binaryOp_of_exec .signedSub rfl fun _ => rfl⟩

/-- Settles O23: both adds execute as the sum of words, and both subtracts as their difference. -/
theorem signedAndUnsignedAgree : Obligations.SignedAndUnsignedAgree := by
  refine fun s => ⟨?_, ?_, fun t ht => ?_, fun t ht => ?_⟩
  · rw [exec_signedAdd, exec_unsignedAdd]
  · rw [exec_signedSub, exec_unsignedSub]
  · exact binary_r1 ((exec_signedAdd s).symm.trans ht)
  · exact binary_r1 ((exec_signedSub s).symm.trans ht)

/-! ### Divide and remainder -/

/-- Settles O24: both have no operand and execute as `State.divide` of a natural number reduced modulo 2^64. -/
theorem unsignedDivision : Obligations.UnsignedDivision :=
  ⟨divisionOp_of_exec .unsignedDiv rfl fun s => congrArg s.divide (funext₂ fun _ _ => u64_natCast _),
    divisionOp_of_exec .unsignedMod rfl fun s => congrArg s.divide (funext₂ fun _ _ => u64_natCast _)⟩

/-- Signed quotient times divisor plus remainder is the dividend, modulo 2^64 (R144). -/
theorem sdiv_mul_add_srem (a b : Word) : a.sdiv b * b + a.srem b = a := by
  calc a.sdiv b * b + a.srem b
      = u64 ((s64 a).tdiv (s64 b) * s64 b + s64 (a.srem b)) := by
        rw [u64_add, u64_mul, u64_tdiv, u64_s64, u64_s64]
    _ = u64 (s64 a) := by
        rw [s64, s64, s64, BitVec.toInt_srem, Int.tdiv_mul_add_tmod]
    _ = a := u64_s64 a

/-- The remainder of a truncating division is 0 or has the dividend's sign (R143, D5). -/
theorem tmod_eq_zero_or_sameSign (a b : Int) :
    a.tmod b = 0 ∨ (0 < a.tmod b ∧ 0 < a) ∨ (a.tmod b < 0 ∧ a < 0) := by
  have hsign := Int.sign_tmod a b
  split at hsign
  · exact .inl (Int.sign_eq_zero_iff_zero.1 hsign)
  · rcases lt_trichotomy a 0 with ha | rfl | ha
    · rw [Int.sign_eq_neg_one_of_neg ha, Int.sign_eq_neg_one_iff_neg] at hsign
      exact .inr (.inr ⟨hsign, ha⟩)
    · exact .inl (Int.zero_tmod b)
    · rw [Int.sign_eq_one_of_pos ha, Int.sign_eq_one_iff_pos] at hsign
      exact .inr (.inl ⟨hsign, ha⟩)

/-- The signed remainder is smaller than a divisor that is not 0 (R144). -/
theorem natAbs_srem_lt (a : Word) {b : Word} (hb : b ≠ 0) : (a.srem b).toInt.natAbs < b.toInt.natAbs := by
  have hpos : 0 < b.toInt.natAbs := Int.natAbs_pos.2 fun h => hb (BitVec.eq_of_toInt_eq h)
  rw [BitVec.toInt_srem, Int.natAbs_tmod]
  exact Nat.mod_lt _ hpos

/-- Settles O26: the four results are the quotients and remainders of words; the signed laws are those above, the
unsigned ones the library's. -/
theorem divisionLaws : Obligations.DivisionLaws := by
  refine fun s h0 => ⟨fun q r hq hr => ?_, fun q r hq hr => ?_⟩
  · rw [divide_r1 h0 ((exec_unsignedDiv s).symm.trans hq), divide_r1 h0 ((exec_unsignedMod s).symm.trans hr)]
    refine ⟨?_, BitVec.lt_def.1 (BitVec.umod_lt _ ((BitVec.pos_iff_ne_zero _).2 h0))⟩
    rw [BitVec.toNat_udiv, BitVec.toNat_umod, Nat.div_add_mod']
  · rw [divide_r1 h0 ((exec_signedDiv s).symm.trans hq), divide_r1 h0 ((exec_signedMod s).symm.trans hr)]
    refine ⟨(sdiv_mul_add_srem _ _).symm, natAbs_srem_lt _ h0, ?_⟩
    rw [BitVec.toInt_srem]
    exact tmod_eq_zero_or_sameSign _ _

end Sys2Proof.Laws

/-! ## Bitwise operations and shifts on R1 and R2 (46_bitwise.md)

Proofs of O28 and O27. All five execute as `State.binary`; a shift's result is `shifted`, which splits at a count of
64. -/

namespace Sys2Proof.Laws

open Sys2Proof.Machine Sys2Proof.Safety Sys2Proof.Claims

/-! ### The shifts -/

/-- A left shift by a count below 64 multiplies by a power of two, modulo 2^64 (R154). -/
theorem shifted_left_of_lt (v : Word) {c : Word} (h : c.toNat < 64) :
    shifted .left v c = BitVec.ofNat 64 (v.toNat * 2 ^ c.toNat) :=
  (if_pos h).trans (u64_natCast _)

/-- A right shift by a count below 64 divides by a power of two, rounding down (R155). -/
theorem shifted_right_of_lt (v : Word) {c : Word} (h : c.toNat < 64) :
    shifted .right v c = BitVec.ofNat 64 (v.toNat / 2 ^ c.toNat) :=
  (if_pos h).trans (u64_natCast _)

/-- A shift by a count of 64 or more is SHIFT_WIDE (R153, D6). -/
theorem shifted_of_le (dir : ShiftDir) (v : Word) {c : Word} (h : 64 ≤ c.toNat) :
    shifted dir v c = Config.shiftWide dir v c :=
  if_neg (Nat.not_lt.2 h)

/-- An instruction without operand bytes that executes as a shift obeys the rule of one, for an `f` that gives the
shift's result below 64. -/
theorem shiftOp_of_exec (i : Instr) {dir : ShiftDir} {f : Nat → Nat → Nat} (hwidth : i.operandWidth = 0)
    (hexec : ∀ s, exec i s = s.binary (shifted dir))
    (hbelow : ∀ v c : Word, c.toNat < 64 → shifted dir v c = BitVec.ofNat 64 (f v.toNat c.toNat)) :
    ShiftOp i.opcode i dir f := by
  refine ⟨encodedN_of_operandWidth_zero hwidth, fun s => ⟨fun hlt => ?_, fun hle => ?_⟩⟩
  · rw [hexec, binary_eq, hbelow _ _ hlt]
  · rw [hexec, binary_eq, shifted_of_le _ _ hle]

/-- Settles O28: both have no operand and execute as `State.binary` of `shifted` in their own direction. -/
theorem shifts : Obligations.Shifts :=
  ⟨shiftOp_of_exec .leftShift rfl (fun _ => rfl) fun v _ => shifted_left_of_lt v,
    shiftOp_of_exec .rightShift rfl (fun _ => rfl) fun v _ => shifted_right_of_lt v⟩

/-! ### And, Or and Xor -/

theorem exec_and (s : State) : exec .and s = s.binary (· &&& ·) := rfl

theorem exec_or (s : State) : exec .or s = s.binary (· ||| ·) := rfl

theorem exec_xor (s : State) : exec .xor s = s.binary (· ^^^ ·) := rfl

/-- Settles O27: the three execute as the library's operations on words, whose bits are given by its `getLsbD`
lemmas. -/
theorem bitwiseOps : Obligations.BitwiseOps := by
  refine ⟨binaryOp_of_exec .and rfl exec_and, binaryOp_of_exec .or rfl exec_or, binaryOp_of_exec .xor rfl exec_xor,
    fun s n _ => ⟨fun t ht => ?_, fun t ht => ?_, fun t ht => ?_⟩⟩
  · rw [binary_r1 ((exec_and s).symm.trans ht), BitVec.getLsbD_and]
  · rw [binary_r1 ((exec_or s).symm.trans ht), BitVec.getLsbD_or]
  · rw [binary_r1 ((exec_xor s).symm.trans ht), BitVec.getLsbD_xor]

end Sys2Proof.Laws

/-! ## The jumps (47_control_flow.md)

Proofs of O29 and O30. Every jump has format W64. A jump that is taken is Jmp, whose target is legal or not; one that is
not taken goes on behind the jump unless it checks an illegal target. -/

namespace Sys2Proof.Laws

open Sys2Proof.Machine Sys2Proof.Safety Sys2Proof.Claims

/-! ### The effect of a jump -/

/-- A jump to a target inside the bytecode sets `pc` and nothing else (R159). -/
theorem execJmp_legal {s : State} {t : Word} (h : t.toNat < s.bc.length) : execJmp t s = .next { s with pc := t } :=
  if_pos (decide_eq_true h)

/-- A jump to any other target ends the call (R158). -/
theorem execJmp_illegal {s : State} {t : Word} (h : s.bc.length ≤ t.toNat) :
    execJmp t s = .next (aborted s .invalidMemoryLocation) :=
  if_neg (by simpa [State.legalTarget] using h)

/-- A conditional jump that is taken does what Jmp does (R161). -/
theorem branch_taken (s : State) (t : Word) : s.branch true t = execJmp t s := rfl

/-- A conditional jump that is not taken passes its operand bytes and nothing else when its target is legal (R161). -/
theorem branch_untaken_legal {s : State} {t : Word} (h : t.toNat < s.bc.length) :
    s.branch false t = .next { s with pc := s.pc + 9 } :=
  if_pos (decide_eq_true h)

/-- Whether a conditional jump that is not taken minds an illegal target is UNTAKEN_TARGET_CHECK (R161, D7). -/
theorem branch_untaken_illegal {s : State} {t : Word} (h : s.bc.length ≤ t.toNat) :
    s.branch false t =
      .next (if Config.untakenTargetCheck then aborted s .invalidMemoryLocation else { s with pc := s.pc + 9 }) := by
  have hillegal : ¬ s.legalTarget t = true := by simpa [State.legalTarget] using h
  refine (if_neg hillegal).trans ?_
  cases Config.untakenTargetCheck <;> rfl

/-- Settles O29: Jmp has format W64, and its two effects are those above. -/
theorem unconditionalJump : Obligations.UnconditionalJump := by
  have hformat : HasFormatW64 0x23 .jmp := fun _ => ⟨rfl, rfl, rfl⟩
  exact ⟨hformat.encodedW64, hformat.truncationAborts, fun t s => ⟨execJmp_legal, execJmp_illegal⟩⟩

/-! ### The conditional jumps -/

/-- An instruction of format W64 that branches on a test of R1 and R3 is the conditional jump of what it tests. -/
theorem conditionalJump_of_exec {opcode : Byte} {build : Word → Instr} {cond : Word → Word → Prop}
    (test : Word → Word → Bool) (hformat : HasFormatW64 opcode build)
    (hexec : ∀ t s, exec (build t) s = s.branch (test s.regs.r1 s.regs.r3) t)
    (htest : ∀ a b, test a b = true ↔ cond a b) : ConditionalJump opcode build cond := by
  refine ⟨hformat.encodedW64, hformat.truncationAborts, fun t s => ?_⟩
  rw [hexec, ← htest]
  cases test s.regs.r1 s.regs.r3 with
  | true =>
    exact ⟨fun _ => execJmp_legal, fun _ => execJmp_illegal, fun hnot => absurd rfl hnot, fun hnot => absurd rfl hnot⟩
  | false => exact ⟨nofun, nofun, fun _ => branch_untaken_legal, fun _ => branch_untaken_illegal⟩

/-- Settles O30: each of the six has format W64 and executes as `State.branch` on its own test. -/
theorem conditionalJumps : Obligations.ConditionalJumps :=
  ⟨conditionalJump_of_exec (· == ·) (fun _ => ⟨rfl, rfl, rfl⟩) (fun _ _ => rfl) fun _ _ => beq_iff_eq,
    conditionalJump_of_exec (· != ·) (fun _ => ⟨rfl, rfl, rfl⟩) (fun _ _ => rfl) fun _ _ => bne_iff_ne,
    conditionalJump_of_exec (fun a b => decide (b.toNat < a.toNat)) (fun _ => ⟨rfl, rfl, rfl⟩) (fun _ _ => rfl)
      fun _ _ => decide_eq_true_iff,
    conditionalJump_of_exec (fun a b => decide (a.toNat < b.toNat)) (fun _ => ⟨rfl, rfl, rfl⟩) (fun _ _ => rfl)
      fun _ _ => decide_eq_true_iff,
    conditionalJump_of_exec (fun a b => decide (b.toNat ≤ a.toNat)) (fun _ => ⟨rfl, rfl, rfl⟩) (fun _ _ => rfl)
      fun _ _ => decide_eq_true_iff,
    conditionalJump_of_exec (fun a b => decide (a.toNat ≤ b.toNat)) (fun _ => ⟨rfl, rfl, rfl⟩) (fun _ _ => rfl)
      fun _ _ => decide_eq_true_iff⟩

end Sys2Proof.Laws

/-! ## Syscall and the syscall port (48_syscall.md)

Proofs of O31 to O37. A step of a wait has one equation for each answer of the callback; what a callback cannot touch is
read off these. Any view is left by a list of writes that clears memory and the table and then fills both from the end, so
that each write puts its entry in front. -/

namespace Sys2Proof.Laws

open Sys2Proof.Machine Sys2Proof.Safety Sys2Proof.Claims

/-! ### The Syscall instruction -/

/-- The lookup fails exactly for an id that the table does not list (R38). -/
theorem sysLookup_eq_none_iff (t : SyscallTable) (id : Word) : sysLookup t id = none ↔ ∀ cb, (id, cb) ∉ t := by
  induction t with
  | nil => simp [sysLookup]
  | cons e t ih =>
    obtain ⟨k, c⟩ := e
    by_cases hk : k = id
    · subst hk
      have hfound : sysLookup ((k, c) :: t) k = some c := if_pos rfl
      simp only [hfound, reduceCtorEq, false_iff]
      exact fun hnone => hnone c (List.mem_cons_self ..)
    · simp [sysLookup, hk, ih, Ne.symm hk]

/-- A Syscall of an id that is not registered ends the call (R170, D19). -/
theorem execSyscall_unregistered {s : State} {id : Word} (h : sysLookup s.sys id = none) :
    execSyscall id s = .next (aborted s .invalidSyscall) := by
  simp only [execSyscall, h]
  rfl

/-- A Syscall of a registered id clears R4 and starts the wait (R170). -/
theorem execSyscall_registered {s : State} {id : Word} {cb : CallbackId} (h : sysLookup s.sys id = some cb) :
    execSyscall id s = .next { s with regs := { s.regs with r4 := 0 }, mode := .waitHost id } := by
  simp only [execSyscall, h]
  rfl

/-- Settles O31: Syscall has format W64; its lookup succeeds exactly for the ids the table lists. -/
theorem syscallStartsWait : Obligations.SyscallStartsWait := by
  have hformat : HasFormatW64 0x2A .syscall := fun _ => ⟨rfl, rfl, rfl⟩
  refine ⟨hformat.encodedW64, hformat.truncationAborts, fun id s => ⟨fun ⟨cb, hcb⟩ => ?_, fun hnone => ?_⟩⟩
  · have hsome : sysLookup s.sys id ≠ none := fun hn => (sysLookup_eq_none_iff s.sys id).1 hn cb hcb
    obtain ⟨cb', hlookup⟩ := Option.ne_none_iff_exists'.1 hsome
    exact execSyscall_registered hlookup
  · exact execSyscall_unregistered ((sysLookup_eq_none_iff s.sys id).2 hnone)

/-! ### A step of a wait, answer by answer -/

/-- A step of a wait for a registered id is what the callback's answer makes of it (R171). -/
theorem step_waitHost_registered {s : State} {id : Word} {cb : CallbackId} {a : HostAnswer}
    (hw : s.mode = .waitHost id) (hcb : sysLookup s.sys id = some cb) (ha : (s.env.nextAnswer cb s.view).1 = a) :
    step s = State.respond { s with env := (s.env.nextAnswer cb s.view).2 } a := by
  rw [step_waitHost s id hw, waitStep_registered s id cb hcb, ha]

/-- Settles O32. -/
theorem waitChangesNothing : Obligations.WaitChangesNothing := fun _ _ _ hw hcb ha =>
  step_waitHost_registered hw hcb ha

/-- Settles O37. -/
theorem reentryIsRefused : Obligations.ReentryIsRefused := fun _ _ _ hw hcb ha =>
  step_waitHost_registered hw hcb ha

/-- After `Ok` the call runs on behind the Syscall with what the writes left (R173, D8). -/
theorem respond_ok (s : State) (ws : List HostWrite) :
    s.respond (.ok ws) = .next
      { s with
        regs := (s.applyWrites ws).regs, mem := (s.applyWrites ws).mem, sys := (s.applyWrites ws).sys
        pc := s.pc + 9, mode := .running } := by
  change Host.Outcome.next { (s.applyWrites ws).advance 8 with mode := .running } = _
  rw [applyWrites_eq]
  rfl

/-- After `Err(E)` the call has ended with `E`, and what was written stays (R174, D10). -/
theorem respond_err (s : State) (e : HostError) (ws : List HostWrite) :
    s.respond (.err e ws) = .next
      { s with
        regs := (s.applyWrites ws).regs, mem := (s.applyWrites ws).mem, sys := (s.applyWrites ws).sys
        mode := .done (.error (.callbackError e)) } := by
  change Host.Outcome.next ((s.applyWrites ws).raise (.callbackError e)) = _
  rw [applyWrites_eq]
  rfl

/-- Settles O33: the callback writes the same whatever the inputs to come. -/
theorem callbackOkContinues : Obligations.CallbackOkContinues := by
  intro s id cb ws hw hcb ha
  rw [step_waitHost_registered hw hcb ha, respond_ok, applyWrites_env]

/-- Settles O34: the callback writes the same whatever the inputs to come. -/
theorem callbackErrorEndsCall : Obligations.CallbackErrorEndsCall := by
  intro s id cb e ws hw hcb ha
  rw [step_waitHost_registered hw hcb ha, respond_err, applyWrites_env]

/-- Settles O35: for each answer of the callback by what the step is then (O32, O33, O34, O37). -/
theorem callbackCannotTouch : Obligations.CallbackCannotTouch := by
  intro s t id hw h
  obtain ⟨cb, hcb, _⟩ := step_waitHost_eq_next hw h
  cases ha : (s.env.nextAnswer cb s.view).1 with
  | stillRunning =>
    cases h.symm.trans (waitChangesNothing s id cb hw hcb ha)
    exact ⟨rfl, rfl, rfl, rfl, .inr ⟨by simp [hw], rfl⟩⟩
  | ok ws =>
    cases h.symm.trans (callbackOkContinues s id cb ws hw hcb ha)
    exact ⟨rfl, rfl, rfl, rfl, .inl ⟨rfl, rfl⟩⟩
  | err e ws =>
    cases h.symm.trans (callbackErrorEndsCall s id cb e ws hw hcb ha)
    exact ⟨rfl, rfl, rfl, rfl, .inr ⟨nofun, rfl⟩⟩
  | reenters => cases h.symm.trans (reentryIsRefused s id cb hw hcb ha)

/-! ### A list of writes for any view -/

theorem applyWrites_append (s : State) (ws vs : List HostWrite) :
    s.applyWrites (ws ++ vs) = (s.applyWrites ws).applyWrites vs := by
  induction ws generalizing s with
  | nil => rfl
  | cons w ws ih => exact ih (s.applyWrite w)

/-- The writes that set the four registers. -/
def writesOfRegs (rs : Regs) : List HostWrite :=
  [.setReg .r1 rs.r1, .setReg .r2 rs.r2, .setReg .r3 rs.r3, .setReg .r4 rs.r4]

theorem applyWrites_writesOfRegs (s : State) (rs : Regs) : s.applyWrites (writesOfRegs rs) = { s with regs := rs } := rfl

/-- A byte that is not 0, written below every listed address, goes to the front. -/
theorem writeByte_below {m : List Host.Cell} {a : Nat} {v : Byte} (hm : ∀ c ∈ m, a < c.1) (hv : v ≠ 0) :
    writeByte m a v = (a, v) :: m := by
  cases m with
  | nil => exact if_neg hv
  | cons c m => exact (if_pos (hm c (List.mem_cons_self ..))).trans (if_neg hv)

/-- The writes that make these the contents of memory: every byte 0, then the listed ones, the highest first. -/
def writesOfMem : List Host.Cell → List HostWrite
  | [] => [.clearMemory]
  | (a, b) :: m => writesOfMem m ++ [.writeByte a b]

theorem applyWrites_writesOfMem (s : State) {m : List Host.Cell} (hm : Memory.wf m = true)
    (hi : Memory.within m s.memLen = true) : s.applyWrites (writesOfMem m) = { s with mem := m } := by
  induction m with
  | nil => rfl
  | cons c m ih =>
    obtain ⟨a, b⟩ := c
    obtain ⟨hbelow, hb, hwf⟩ := (memory_wf_cons a b m).1 hm
    obtain ⟨ha, hin⟩ : a < s.memLen ∧ Memory.within m s.memLen = true := by simpa [Memory.within] using hi
    rw [writesOfMem, applyWrites_append, ih hwf hin, ← writeByte_below hbelow hb]
    exact if_pos ha

/-- An id below every registered one goes to the front. -/
theorem sysInsert_below {t : SyscallTable} {id : Word} (cb : CallbackId) (ht : ∀ e ∈ t, id < e.1) :
    sysInsert t id cb = (id, cb) :: t := by
  cases t with
  | nil => rfl
  | cons e t => exact if_pos (ht e (List.mem_cons_self ..))

theorem eq_withSys {s : State} {t : SyscallTable} (h : s.sys = t) : s = { s with sys := t } := by
  subst h
  rfl

/-- Unregistering every id the table lists leaves it empty. -/
theorem applyWrites_unregisterAll (s : State) :
    s.applyWrites (s.sys.map fun e => .unregisterSyscall e.1) = { s with sys := [] } := by
  induction h : s.sys generalizing s with
  | nil => exact eq_withSys h
  | cons e t ih =>
    have herase : (s.unregisterSyscall e.1).sys = t := by
      rw [state_unregisterSyscall_sys, h]
      exact if_pos rfl
    exact ih (s.unregisterSyscall e.1) herase

/-- The writes that fill an empty table, the highest id first. -/
def writesOfSys : SyscallTable → List HostWrite
  | [] => []
  | (id, cb) :: t => writesOfSys t ++ [.registerSyscall id cb]

theorem applyWrites_writesOfSys {s : State} (hs : s.sys = []) {t : SyscallTable} (ht : sysSorted t = true) :
    s.applyWrites (writesOfSys t) = { s with sys := t } := by
  induction t with
  | nil => exact eq_withSys hs
  | cons e t ih =>
    obtain ⟨id, cb⟩ := e
    obtain ⟨hbelow, hsorted⟩ := (sysSorted_cons id cb t).1 ht
    rw [writesOfSys, applyWrites_append, ih hsorted, ← sysInsert_below cb hbelow]
    rfl

/-- Settles O36: the writes for registers, for memory and for the table, one after another. -/
theorem callbackMayLeaveAnyView : Obligations.CallbackMayLeaveAnyView := by
  intro s rs m t hm hi ht
  refine ⟨writesOfRegs rs ++ (writesOfMem m ++ (s.sys.map (fun e => .unregisterSyscall e.1) ++ writesOfSys t)), ?_⟩
  rw [applyWrites_append, applyWrites_writesOfRegs, applyWrites_append,
    applyWrites_writesOfMem { s with regs := rs } hm hi, applyWrites_append,
    applyWrites_unregisterAll { s with regs := rs, mem := m }, applyWrites_writesOfSys rfl ht]

end Sys2Proof.Laws

/-! ## Errors, signed division, construct, the clears, and the inputs (60_exceptions.md, 70_reset_and_hazards.md)

Proofs of O16, O25, O46, O48, O49 and O54. Which errors an instruction raises is read off its `Laws.ExecShape`. -/

namespace Sys2Proof.Laws

open Sys2Proof.Machine Sys2Proof.Safety Sys2Proof.Claims

/-- Settles O16: of the shapes an instruction can have, two raise an error, each its own. -/
theorem errorsByInstruction : Obligations.ErrorsByInstruction := by
  intro i s t k hs h ht
  cases execShape_of_next h with
  | result | store | latch | fallThrough | jump => exact nomatch hs.symm.trans ht
  | wait => cases ht
  | badLocation haccess => cases ht; exact .inl ⟨rfl, haccess⟩
  | badSyscall id hi => cases ht; exact .inr ⟨rfl, id, hi⟩

/-- Settles O25: both have no operand and execute as `State.divide` of the truncating division. -/
theorem signedDivision : Obligations.SignedDivision :=
  ⟨divisionOp_of_exec .signedDiv rfl fun _ => rfl, divisionOp_of_exec .signedMod rfl fun _ => rfl⟩

/-! ### construct and the clears -/

/-- Settles O46: memory and the table are the empty lists, and mode Idle is no call. -/
theorem constructState : Obligations.ConstructState := by
  refine fun m c => ⟨rfl, rfl, readByte_nil, fun _ => rfl, rfl, rfl, ?_⟩
  rintro (hrun | ⟨_, hwait⟩)
  · cases hrun
  · cases hwait

/-- Settles O48: the three instructions leave 0 in R1, R2 and R3 by their moves and in R4 by its clearing, and their
lengths add up to 4. -/
theorem clearRegisters : Obligations.ClearRegisters := by
  refine fun s => ⟨rfl, _, _, _, rfl, rfl, rfl, ?_⟩
  have hpc : s.pc + 2 + 1 + 1 = s.pc + 4 := by bv_omega
  rw [← hpc]
  rfl

/-- Settles O49: memory that lists no byte reads as 0. -/
theorem clearMemory : Obligations.ClearMemory := fun _ => ⟨readByte_nil, rfl⟩

/-! ### The inputs -/

/-- Settles O54: for each kind of input by the list of those the state fixes. -/
theorem inputsComeInOrder : Obligations.InputsComeInOrder := by
  intro e cb v
  refine ⟨fun b bs h => ?_, fun a as h => ?_, fun c cs h => ?_, fun h => ?_, fun h => ?_, fun h => ?_⟩
  · rw [Env.nextStop, h]
  · rw [Env.nextAnswer, h]
  · rw [Env.nextCommand, h]
  · rw [Env.nextStop, h]
  · rw [Env.nextAnswer, h]
  · rw [Env.nextCommand, h]

end Sys2Proof.Laws
